-- ==== Sys2Proof/Word.lean ====
section
/-! DEFINITION. The two widths of the machine: a byte of the register/memory space and a word of the program
store (spec/00_scope.md R5 `BYTE_BITS`, `WORD_BITS`, and R7). -/

namespace Sys2Proof

/-- A memory cell, a register, an ALU value: 8 bits (R5 `BYTE_BITS`). -/
abbrev Byte := BitVec 8

/-- A word of the program store, an opcode or an operand: 16 bits (R5 `WORD_BITS`). -/
abbrev Word := BitVec 16

end Sys2Proof
end

