-- ==== Sys2Proof/Config.lean ====
section
/-! DEFINITION. The build-time parameters of one instance of the core (spec/00_scope.md R5, R6) and what makes
them valid. `Config.default`, the values the spec uses in its examples, stands in Decode.lean beside the opcode
numbers. The spec leaves no result of an instruction open, so there is no free value here. -/

namespace Sys2Proof

/-- `NUM_REGS` (R5, fixed): the first 16 cells of the memory space are the registers. -/
def numRegs : Nat := 16

/-- The 29 mnemonics of the instruction set (spec/30_encoding.md R84), in the order of its table. -/
inductive Mnemonic where
  | ldi
  | mov
  | movw
  | push
  | pop
  | adiw
  | add
  | subi
  | sub
  | mul
  | inc
  | dec
  | swap
  | neg
  | ror
  | andi
  | and
  | ori
  | or
  | eor
  | cpi
  | cp
  | jz
  | je
  | jne
  | brk
  | nop
  | out
  | inp
  deriving DecidableEq, Repr

/-- Every mnemonic once, in the order of R84. -/
def Mnemonic.all : List Mnemonic :=
  [.ldi, .mov, .movw, .push, .pop, .adiw, .add, .subi,
   .sub, .mul, .inc, .dec, .swap, .neg, .ror, .andi,
   .and, .ori, .or, .eor, .cpi, .cp, .jz, .je,
   .jne, .brk, .nop, .out, .inp]

/-- The parameter `OPC` (R5): the opcode word of each mnemonic, one field per row of R84. -/
structure OpcodeMap where
  ldi : Word
  mov : Word
  movw : Word
  push : Word
  pop : Word
  adiw : Word
  add : Word
  subi : Word
  sub : Word
  mul : Word
  inc : Word
  dec : Word
  swap : Word
  neg : Word
  ror : Word
  andi : Word
  and : Word
  ori : Word
  or : Word
  eor : Word
  cpi : Word
  cp : Word
  jz : Word
  je : Word
  jne : Word
  brk : Word
  nop : Word
  out : Word
  inp : Word
  deriving DecidableEq, Repr

/-- `OPC(m)` (R5). -/
def OpcodeMap.code (o : OpcodeMap) : Mnemonic → Word
  | .ldi => o.ldi
  | .mov => o.mov
  | .movw => o.movw
  | .push => o.push
  | .pop => o.pop
  | .adiw => o.adiw
  | .add => o.add
  | .subi => o.subi
  | .sub => o.sub
  | .mul => o.mul
  | .inc => o.inc
  | .dec => o.dec
  | .swap => o.swap
  | .neg => o.neg
  | .ror => o.ror
  | .andi => o.andi
  | .and => o.and
  | .ori => o.ori
  | .or => o.or
  | .eor => o.eor
  | .cpi => o.cpi
  | .cp => o.cp
  | .jz => o.jz
  | .je => o.je
  | .jne => o.jne
  | .brk => o.brk
  | .nop => o.nop
  | .out => o.out
  | .inp => o.inp

/-- The parameters of R5 that are not fixed widths. No instruction reads or changes them as data (R6). -/
structure Config where
  /-- `MEM_SIZE`: byte cells in the register/memory space. -/
  memSize : Nat
  /-- `PROG_SIZE`: words in the program store (the source's "capacity"). -/
  progSize : Nat
  /-- `SP_ADDR`: address of the low byte of SP; the high byte is at `SP_ADDR + 1`. -/
  spAddr : Nat
  /-- `PORT_CONSOLE`: address whose `OUT` write also emits a console byte. -/
  portConsole : Nat
  /-- `PORT_EXIT`: address whose `OUT` write also forces termination. -/
  portExit : Nat
  /-- `OPC`: the opcode numbers. -/
  opc : OpcodeMap
  /-- `BAD_WORD`: what an unloaded program-store cell holds. -/
  badWord : Word
  /-- `DIAG_LOG`: whether an unknown opcode is logged. -/
  diagLog : Bool
  deriving DecidableEq, Repr

/-- The constraints column of R5: the ranges, the two ports distinct, `OPC` injective, `BAD_WORD` not an opcode. -/
abbrev Config.Valid (c : Config) : Prop :=
  (18 ≤ c.memSize ∧ c.memSize ≤ 65536) ∧
  (1 ≤ c.progSize ∧ c.progSize ≤ 65536) ∧
  c.spAddr ≤ 14 ∧
  (16 ≤ c.portConsole ∧ c.portConsole < c.memSize) ∧
  (16 ≤ c.portExit ∧ c.portExit < c.memSize) ∧
  c.portConsole ≠ c.portExit ∧
  (Mnemonic.all.map c.opc.code).Nodup ∧
  c.badWord ∉ Mnemonic.all.map c.opc.code

end Sys2Proof
end

