-- ==== Sys2Proof/Syntax.lean ====
section
/-! DEFINITION. The instruction set as syntax: one constructor of `Instr` per row of spec/opcode_table.json, and the
format table of spec/30_encoding.md R81. An operand is the whole 16-bit operand word as it stands in the program
store: an invalid register operand is a defined no-op (R87), so it must be writable here. -/

namespace Sys2Proof

/-- The instructions (R84), then the two rows for words that are no opcode. -/
inductive Instr where
  /-- LDI: load immediate (R120): `reg a`, `imm b`. -/
  | ldi (a b : Word)
  /-- MOV: copy register (R121): `reg a`, `reg b`. -/
  | mov (a b : Word)
  /-- MOVW: copy a word between two addresses (R122): `addr a`, `addr b`. -/
  | movw (a b : Word)
  /-- PUSH: store a register at SP, then decrement SP (R123): `reg a`. -/
  | push (a : Word)
  /-- POP: increment SP, then load a register from SP (R124): `reg a`. -/
  | pop (a : Word)
  /-- ADIW: add immediate (R143): `reg a`, `imm b`. -/
  | adiw (a b : Word)
  /-- ADD: add register (R144): `reg a`, `reg b`. -/
  | add (a b : Word)
  /-- SUBI: subtract immediate (R145): `reg a`, `imm b`. -/
  | subi (a b : Word)
  /-- SUB: subtract register (R146): `reg a`, `reg b`. -/
  | sub (a b : Word)
  /-- MUL: multiply, low byte (R147): `reg a`, `reg b`. -/
  | mul (a b : Word)
  /-- INC: increment (R148): `reg a`. -/
  | inc (a : Word)
  /-- DEC: decrement (R149): `reg a`. -/
  | dec (a : Word)
  /-- SWAP: swap nibbles (R150): `reg a`. -/
  | swap (a : Word)
  /-- NEG: negate (R151): `reg a`. -/
  | neg (a : Word)
  /-- ROR: shift right, bit 7 from N (R152): `reg a`. -/
  | ror (a : Word)
  /-- ANDI: and with immediate (R160): `reg a`, `imm b`. -/
  | andi (a b : Word)
  /-- AND: and with register (R161): `reg a`, `reg b`. -/
  | and (a b : Word)
  /-- ORI: or with immediate (R162): `reg a`, `imm b`. -/
  | ori (a b : Word)
  /-- OR: or with register (R163): `reg a`, `reg b`. -/
  | or (a b : Word)
  /-- EOR: exclusive or with register (R164): `reg a`, `reg b`. -/
  | eor (a b : Word)
  /-- CPI: compare with immediate (R170): `reg a`, `imm b`. -/
  | cpi (a b : Word)
  /-- CP: compare registers (R171): `reg a`, `reg b`. -/
  | cp (a b : Word)
  /-- JZ: jump if Zero (R172): `target a`. -/
  | jz (a : Word)
  /-- JE: jump if equal, a synonym of JZ with its own opcode (R173): `target a`. -/
  | je (a : Word)
  /-- JNE: jump if not Zero (R174): `target a`. -/
  | jne (a : Word)
  /-- BREAK: BREAK, force termination (R180). -/
  | brk
  /-- NOP: no operation (R181). -/
  | nop
  /-- OUT: store a register, with port effects (R182): `port a`, `reg b`. -/
  | out (a b : Word)
  /-- IN: IN, load a register from an address (R183): `reg a`, `addr b`. -/
  | inp (a b : Word)
  /-- BAD: the word `BAD_WORD` fetched as an opcode (R184). -/
  | bad
  /-- UNKNOWN: any other word that is no opcode, with the word itself (R185). -/
  | unknown (w : Word)
  deriving DecidableEq, Repr

/-- The formats of R81: how many operand words follow and of what kind. -/
inductive Format where
  | N | R | T | RI | RR | AA | PR | RA
  deriving DecidableEq, Repr

/-- The operand kinds of R86, R88, R89. -/
inductive OperandKind where
  | reg | imm | addr | port | target
  deriving DecidableEq, Repr

/-- The operand words of a format, in order (R81). -/
def Format.kinds : Format → List OperandKind
  | .N => []
  | .R => [.reg]
  | .T => [.target]
  | .RI => [.reg, .imm]
  | .RR => [.reg, .reg]
  | .AA => [.addr, .addr]
  | .PR => [.port, .reg]
  | .RA => [.reg, .addr]

/-- The format column of R84. -/
def Mnemonic.format : Mnemonic → Format
  | .ldi => .RI
  | .mov => .RR
  | .movw => .AA
  | .push => .R
  | .pop => .R
  | .adiw => .RI
  | .add => .RR
  | .subi => .RI
  | .sub => .RR
  | .mul => .RR
  | .inc => .R
  | .dec => .R
  | .swap => .R
  | .neg => .R
  | .ror => .R
  | .andi => .RI
  | .and => .RR
  | .ori => .RI
  | .or => .RR
  | .eor => .RR
  | .cpi => .RI
  | .cp => .RR
  | .jz => .T
  | .je => .T
  | .jne => .T
  | .brk => .N
  | .nop => .N
  | .out => .PR
  | .inp => .RA

/-- The mnemonic an instruction is written with; a word that is no opcode has none. -/
def Instr.mnemonic : Instr → Option Mnemonic
  | .ldi _ _ => some .ldi
  | .mov _ _ => some .mov
  | .movw _ _ => some .movw
  | .push _ => some .push
  | .pop _ => some .pop
  | .adiw _ _ => some .adiw
  | .add _ _ => some .add
  | .subi _ _ => some .subi
  | .sub _ _ => some .sub
  | .mul _ _ => some .mul
  | .inc _ => some .inc
  | .dec _ => some .dec
  | .swap _ => some .swap
  | .neg _ => some .neg
  | .ror _ => some .ror
  | .andi _ _ => some .andi
  | .and _ _ => some .and
  | .ori _ _ => some .ori
  | .or _ _ => some .or
  | .eor _ _ => some .eor
  | .cpi _ _ => some .cpi
  | .cp _ _ => some .cp
  | .jz _ => some .jz
  | .je _ => some .je
  | .jne _ => some .jne
  | .brk => some .brk
  | .nop => some .nop
  | .out _ _ => some .out
  | .inp _ _ => some .inp
  | .bad => none
  | .unknown _ => none

/-- The operand words of an instruction, in program-store order (R80). -/
def Instr.operands : Instr → List Word
  | .ldi a b => [a, b]
  | .mov a b => [a, b]
  | .movw a b => [a, b]
  | .push a => [a]
  | .pop a => [a]
  | .adiw a b => [a, b]
  | .add a b => [a, b]
  | .subi a b => [a, b]
  | .sub a b => [a, b]
  | .mul a b => [a, b]
  | .inc a => [a]
  | .dec a => [a]
  | .swap a => [a]
  | .neg a => [a]
  | .ror a => [a]
  | .andi a b => [a, b]
  | .and a b => [a, b]
  | .ori a b => [a, b]
  | .or a b => [a, b]
  | .eor a b => [a, b]
  | .cpi a b => [a, b]
  | .cp a b => [a, b]
  | .jz a => [a]
  | .je a => [a]
  | .jne a => [a]
  | .brk => []
  | .nop => []
  | .out a b => [a, b]
  | .inp a b => [a, b]
  | .bad => []
  | .unknown _ => []

/-- The length in words: the opcode word and the operand words (R80); an unknown word has length 1 (R83). -/
def Instr.length (i : Instr) : Nat :=
  1 + i.operands.length

/-- The kinds of the operand words, from the format table. -/
def Instr.kinds (i : Instr) : List OperandKind :=
  match i.mnemonic with
  | some m => m.format.kinds
  | none => []

/-- The operand words that designate registers (R86). -/
def Instr.regOperands (i : Instr) : List Word :=
  ((i.kinds.zip i.operands).filter fun p => p.1 = .reg).map Prod.snd

end Sys2Proof
end

