-- ==== Sys2Proof/WellFormed.lean ====
section
/-! DEFINITION. Which terms of `Instr` stand for something an instance of the core can meet. -/

namespace Sys2Proof

/-- The mnemonic whose opcode a word is, if any (R84: the whole word is compared). -/
def Config.lookup (c : Config) (w : Word) : Option Mnemonic :=
  Mnemonic.all.find? fun m => c.opc.code m == w

/-- A word may stand in `Instr.unknown` only if it is neither an opcode nor `BAD_WORD` (R185, R184). Every operand
word of every instruction is legal (R87, R88, R89), so there is no other check. -/
def Instr.wf (c : Config) : Instr → Bool
  | .unknown w => c.lookup w == none && w != c.badWord
  | .ldi _ _ => true
  | .mov _ _ => true
  | .movw _ _ => true
  | .push _ => true
  | .pop _ => true
  | .adiw _ _ => true
  | .add _ _ => true
  | .subi _ _ => true
  | .sub _ _ => true
  | .mul _ _ => true
  | .inc _ => true
  | .dec _ => true
  | .swap _ => true
  | .neg _ => true
  | .ror _ => true
  | .andi _ _ => true
  | .and _ _ => true
  | .ori _ _ => true
  | .or _ _ => true
  | .eor _ _ => true
  | .cpi _ _ => true
  | .cp _ _ => true
  | .jz _ => true
  | .je _ => true
  | .jne _ => true
  | .brk => true
  | .nop => true
  | .out _ _ => true
  | .inp _ _ => true
  | .bad => true

end Sys2Proof
end

