-- ==== Sys2Proof/Decode.lean ====
section
/-! DEFINITION. Decode (spec/40_execution_loop.md R102, spec/30_encoding.md R80 to R90): words of the program store to
an instruction; the encoder; the default opcode numbers of R84 and the default parameters of R5. -/

namespace Sys2Proof

/-- The `value` column of R84: the default of the parameter `OPC`. -/
def defaultOpcodes : OpcodeMap where
  ldi := 0x0000
  mov := 0x0001
  movw := 0x0002
  push := 0x0003
  pop := 0x0004
  adiw := 0x0005
  add := 0x0006
  subi := 0x0007
  sub := 0x0008
  mul := 0x0009
  inc := 0x000A
  dec := 0x000B
  swap := 0x000C
  neg := 0x000D
  ror := 0x000E
  andi := 0x000F
  and := 0x0010
  ori := 0x0011
  or := 0x0012
  eor := 0x0013
  cpi := 0x0014
  cp := 0x0015
  jz := 0x0016
  je := 0x0017
  jne := 0x0018
  brk := 0x0019
  nop := 0x001A
  out := 0x001B
  inp := 0x001C

/-- The `default` column of R5. -/
def Config.default : Config where
  memSize := 512
  progSize := 128
  spAddr := 14
  portConsole := 16
  portExit := 17
  opc := defaultOpcodes
  badWord := 0xFFFF
  diagLog := false

/-- The Decode stage of the loop: the identity, a reserved extension seam (R102, R82). -/
def decodeStage (w : Word) : Word := w

/-- Why words do not make an instruction: they end too early. -/
inductive DecodeError where
  /-- There is no opcode word at all. -/
  | opcodeMissing
  /-- Operand word `k` (1 for `a`, 2 for `b`) lies past the end of the words. -/
  | operandMissing (k : Nat)
  deriving DecidableEq, Repr

/-- The offset, from the opcode word, of the first word that is missing. -/
def DecodeError.offset : DecodeError → Nat
  | .opcodeMissing => 0
  | .operandMissing k => k

/-- An instruction waiting for its operand words. -/
inductive Pending where
  | zero (i : Instr)
  | one (f : Word → Instr)
  | two (f : Word → Word → Instr)

/-- The constructor each mnemonic decodes to, with as many operand words as its format has (R81). -/
def Mnemonic.pending : Mnemonic → Pending
  | .ldi => .two .ldi
  | .mov => .two .mov
  | .movw => .two .movw
  | .push => .one .push
  | .pop => .one .pop
  | .adiw => .two .adiw
  | .add => .two .add
  | .subi => .two .subi
  | .sub => .two .sub
  | .mul => .two .mul
  | .inc => .one .inc
  | .dec => .one .dec
  | .swap => .one .swap
  | .neg => .one .neg
  | .ror => .one .ror
  | .andi => .two .andi
  | .and => .two .and
  | .ori => .two .ori
  | .or => .two .or
  | .eor => .two .eor
  | .cpi => .two .cpi
  | .cp => .two .cp
  | .jz => .one .jz
  | .je => .one .je
  | .jne => .one .jne
  | .brk => .zero .brk
  | .nop => .zero .nop
  | .out => .two .out
  | .inp => .two .inp

/-- Takes the operand words in order, `a` then `b` (R103), and returns the words left over. -/
def Pending.take : Pending → List Word → Except DecodeError (Instr × List Word)
  | .zero i, ws => .ok (i, ws)
  | .one f, a :: ws => .ok (f a, ws)
  | .one _, [] => .error (.operandMissing 1)
  | .two f, a :: b :: ws => .ok (f a b, ws)
  | .two _, [_] => .error (.operandMissing 2)
  | .two _, [] => .error (.operandMissing 1)

/-- Decodes the instruction at the head of a list of words: an opcode takes its operand words; `BAD_WORD` and every
other word stand alone (R83, R84, R90). -/
def decode (c : Config) : List Word → Except DecodeError (Instr × List Word)
  | [] => .error .opcodeMissing
  | w :: ws =>
    match c.lookup (decodeStage w) with
    | some m => m.pending.take ws
    | none => .ok (if decodeStage w = c.badWord then .bad else .unknown w, ws)

/-- The opcode word of an instruction (R84). -/
def opcodeWord (c : Config) (i : Instr) : Word :=
  match i, i.mnemonic with
  | .unknown w, _ => w
  | _, some m => c.opc.code m
  | _, none => c.badWord

/-- The words of an instruction: the opcode word, then the operand words (R80, R81). -/
def encode (c : Config) (i : Instr) : List Word :=
  opcodeWord c i :: i.operands

/-- Word `k` of an instruction given as one number whose bit 0 is the least significant bit of the first word. -/
def tableWord (nbits w k : Nat) : Word :=
  BitVec.ofNat 16 ((w % 2 ^ nbits) >>> (16 * k))

/-- The words of an instruction of the opcode table, up to the longest length (3, R80); bits above `nbits` are 0. -/
def tableWords (nbits w : Nat) : List Word :=
  [tableWord nbits w 0, tableWord nbits w 1, tableWord nbits w 2]

/-- What the decoder reads, under the default parameters, from an instruction of the opcode table. -/
def decodeTableWord (nbits w : Nat) : Option Instr :=
  match decode Config.default (tableWords nbits w) with
  | .ok (i, _) => some i
  | .error _ => none

end Sys2Proof
end

