-- ==== Sys2Proof/Machine/State.lean ====
section
/-! DEFINITION. The state of one core as plain data (spec/10_state.md R20 to R38), why a step can stop, and the state
after reset. The registers and SP are cells of `mem` and have no storage of their own (R21, R26). -/

namespace Sys2Proof.Machine

/-- `MEM` (R20) as the list of its cells that are not 0: addresses strictly rising, no entry equal to 0. -/
abbrev Memory := List Host.Cell

/-- `PROG` (R28) as the list of its words that are not `BAD_WORD`: indices strictly rising, no entry equal to it. -/
abbrev ProgStore := List (Nat × Word)

/-- The two faults (spec/60_exceptions.md R190 rows 4 and 5). -/
inductive FaultCode where
  /-- A data address at or above `MEM_SIZE` reached a memory primitive. -/
  | memFault
  /-- An operand word would lie at or above `PROG_SIZE`. -/
  | fetchFault
  deriving DecidableEq, Repr

/-- The code of a fault as a number (R191). -/
def FaultCode.number : FaultCode → Nat
  | .memFault => 1
  | .fetchFault => 2

/-- The fault record (R191): the code, the index and the opcode word of the faulting instruction, and the offending
data address or program-store index. -/
structure FaultRecord where
  code : FaultCode
  index : Nat
  word : Word
  info : Nat
  deriving DecidableEq, Repr

/-- Everything the spec gives the machine (R37: the list is complete). -/
@[ext]
structure State where
  /-- The parameters this instance was built with (spec/00_scope.md R5); no step changes them (R6). -/
  cfg : Config
  /-- The register/memory space (R20): registers, SP, port cells, general memory. -/
  mem : Memory
  /-- The program store (R28), immutable after load (R29). -/
  prog : ProgStore
  /-- The program counter, an index of `PROG` that never wraps (R30, R32). -/
  pc : Nat
  /-- The Zero flag (R33). -/
  z : Bool
  /-- The Negative flag (R33). -/
  n : Bool
  /-- `CONSOLE`, the bytes emitted so far, oldest first (R36 a). -/
  console : List Byte
  /-- `DIAG`, the unknown opcodes logged so far as (index, word), oldest first (R36 c). -/
  diag : List (Nat × Word)
  /-- The fault record, if the core is faulted (R36 b, R192). -/
  fault : Option FaultRecord
  deriving DecidableEq, Repr

/-- Why `step` answers no next state: no step is enabled (spec/40_execution_loop.md R100, R108). A fault the spec
describes is TAKEN, as a next state that holds its record (R192); these two come after it, or after a normal end. -/
inductive Fault where
  /-- The core is halted: `pc ≥ PROG_SIZE` and no fault (R107). Raised by `step`. Safe: nothing runs after the end. -/
  | halted
  /-- The core is faulted with this record (R192). Raised by `step`. Safe: nothing runs after a fault. -/
  | faulted (r : FaultRecord)
  deriving DecidableEq, Repr

/-- Instructions without a meaning. -/
inductive Refusal where
  /-- Raised by `exec` for an instruction that has no meaning in the model. Safe: the machine stops. No arm raises it. -/
  | notModelled (mnemonic : String)
  deriving DecidableEq, Repr

/-- What one instruction or one step answers. -/
abbrev Result := Host.Outcome State Fault Refusal

namespace State

/-- `s` with another memory. -/
def withMem (s : State) (m : Memory) : State := { s with mem := m }
/-- `s` with another program store (loading only, R29). -/
def withProg (s : State) (p : ProgStore) : State := { s with prog := p }
/-- `s` with another program counter. -/
def withPc (s : State) (p : Nat) : State := { s with pc := p }
/-- `s` with both flags written (R34: they are always written together). -/
def withFlags (s : State) (z n : Bool) : State := { s with z := z, n := n }
/-- `s` with another console sequence. -/
def withConsole (s : State) (c : List Byte) : State := { s with console := c }
/-- `s` with another diagnostic sequence. -/
def withDiag (s : State) (d : List (Nat × Word)) : State := { s with diag := d }
/-- `s` with another fault record. -/
def withFault (s : State) (f : Option FaultRecord) : State := { s with fault := f }

/-- The machine right after reset (R38), built with the default parameters and with no image loaded: every cell 0,
`pc` 0, both flags false, every word of `PROG` equal to `BAD_WORD`, nothing emitted, no fault. -/
def reset : State where
  cfg := Config.default
  mem := []
  prog := []
  pc := 0
  z := false
  n := false
  console := []
  diag := []
  fault := none

end State

end Sys2Proof.Machine
end

