-- ==== Sys2Proof/Machine/Flags.lean ====
section
/-! DEFINITION. The flag computations of the machine (spec/10_state.md R33, R34): there are two flags and one way to
compute them. -/

namespace Sys2Proof.Machine

/-- Zero: the byte result is 0 (R34). -/
def zeroOf (r : Byte) : Bool := r == 0

/-- Negative: bit 7 of the byte result is 1 (R34). -/
def negativeOf (r : Byte) : Bool := r.getLsbD 7

/-- `SetZN(r)` (R34). -/
def State.setZN (s : State) (r : Byte) : State := s.withFlags (zeroOf r) (negativeOf r)

end Sys2Proof.Machine
end

