-- ==== Sys2Proof/Machine/Ops.lean ====
section
/-! DEFINITION. The named operations of the machine: sparse stores, the register/memory space, the program store,
the stack pointer, the outputs, termination, taking a fault, the frame every instruction runs in, and the loader. -/

namespace Sys2Proof.Machine

/-! ### Sparse stores: a list of (key, value) pairs that leaves out the default value -/

/-- The value at a key; a key that is not listed holds the default `d`. -/
def Cells.get {α : Type} (d : α) : List (Nat × α) → Nat → α
  | [], _ => d
  | (k, v) :: t, a => if k = a then v else Cells.get d t a

/-- Stores `v` at key `a`, keeping the keys strictly rising and leaving the default out. -/
def Cells.set {α : Type} [DecidableEq α] (d : α) : List (Nat × α) → Nat → α → List (Nat × α)
  | [], a, v => if v = d then [] else [(a, v)]
  | (k, w) :: t, a, v =>
    if a < k then (if v = d then (k, w) :: t else (a, v) :: (k, w) :: t)
    else if a = k then (if v = d then t else (a, v) :: t)
    else (k, w) :: Cells.set d t a v

/-- The canonical form: keys strictly rising, no entry equal to the default. -/
def Cells.wf {α : Type} [DecidableEq α] (d : α) : List (Nat × α) → Bool
  | [] => true
  | (k, v) :: t => decide (v ≠ d) && t.all (fun c => decide (k < c.1)) && Cells.wf d t

/-- Every key is below `n`. -/
def Cells.below {α : Type} (n : Nat) (t : List (Nat × α)) : Bool :=
  t.all fun c => decide (c.1 < n)

/-- What a cell of `MEM` that nothing has written holds: 0 (spec/10_state.md R38, "zero-initialized"). -/
def Memory.unlisted : Byte := 0

/-- The byte at an address. -/
def Memory.read (m : Memory) (a : Nat) : Byte := Cells.get Memory.unlisted m a

/-- Stores a byte at an address; every other cell keeps its value. -/
def Memory.write (m : Memory) (a : Nat) (v : Byte) : Memory := Cells.set Memory.unlisted m a v

/-- The canonical form of `MEM`. -/
def Memory.wf (m : Memory) : Bool := Cells.wf Memory.unlisted m

/-- Why an instruction is abandoned (R9 `raise F(info)`): the fault and the offending address or index. -/
inductive Raise where
  | memFault (addr : Nat)
  | fetchFault (index : Nat)
  deriving DecidableEq, Repr

/-- The code a raised fault is recorded with (spec/60_exceptions.md R191). -/
def Raise.code : Raise → FaultCode
  | .memFault _ => .memFault
  | .fetchFault _ => .fetchFault

/-- The `info` of a raised fault (R191). -/
def Raise.info : Raise → Nat
  | .memFault a => a
  | .fetchFault i => i

namespace State

/-! ### The program store -/

/-- `PROG[i]` (R28); a cell that was not loaded holds `BAD_WORD` (R38). -/
def progWord (s : State) (i : Nat) : Word := Cells.get s.cfg.badWord s.prog i

/-! ### Memory primitives (spec/00_scope.md R9, spec/20_memory.md R52, R53, R57) -/

/-- `MemRead(addr, 1)`. -/
def readByte (s : State) (a : Nat) : Except Raise Byte :=
  if a < s.cfg.memSize then .ok (s.mem.read a) else .error (.memFault a)

/-- `MemWrite(addr, 1, v)`. -/
def writeByte (s : State) (a : Nat) (v : Byte) : Except Raise State :=
  if a < s.cfg.memSize then .ok (s.withMem (s.mem.write a v)) else .error (.memFault a)

/-- The word whose low byte stands at `a` and whose high byte at `a + 1` (R53). -/
def wordAt (s : State) (a : Nat) : Word := s.mem.read (a + 1) ++ s.mem.read a

/-- `MemRead(addr, 2)`: little-endian; the first of `addr`, `addr + 1` that is out of range is reported. -/
def readWord (s : State) (a : Nat) : Except Raise Word :=
  if a < s.cfg.memSize then
    if a + 1 < s.cfg.memSize then .ok (s.wordAt a) else .error (.memFault (a + 1))
  else .error (.memFault a)

/-- `MemWrite(addr, 2, v)`: `v[7:0]` to `addr`, `v[15:8]` to `addr + 1`; the range is checked before any cell is
written. -/
def writeWord (s : State) (a : Nat) (v : Word) : Except Raise State :=
  if a < s.cfg.memSize then
    if a + 1 < s.cfg.memSize then
      .ok (s.withMem ((s.mem.write a (v.setWidth 8)).write (a + 1) ((v >>> 8).setWidth 8)))
    else .error (.memFault (a + 1))
  else .error (.memFault a)

/-! ### Registers and the stack pointer -/

/-- `x[i]`: register `i` is the cell `MEM[i]` (spec/10_state.md R21, R22). -/
def reg (s : State) (i : Nat) : Byte := s.mem.read i

/-- `x[i] <- v`. -/
def setReg (s : State) (i : Nat) (v : Byte) : State := s.withMem (s.mem.write i v)

/-- `SP`, the word held in `MEM[SP_ADDR]`, `MEM[SP_ADDR+1]` (R25). -/
def sp (s : State) : Word := s.wordAt s.cfg.spAddr

/-! ### Outputs and termination -/

/-- `Emit(b)`: one byte appended to `CONSOLE` (R36 a). -/
def emit (s : State) (b : Byte) : State := s.withConsole (s.console ++ [b])

/-- `Diag(i, w)`: logged only if `DIAG_LOG` (spec/45_control_io.md R186). -/
def logDiag (s : State) (i : Nat) (w : Word) : State :=
  if s.cfg.diagLog then s.withDiag (s.diag ++ [(i, w)]) else s

/-- `Halt()`: `pc <- PROG_SIZE` (spec/40_execution_loop.md R106). -/
def halt (s : State) : State := s.withPc s.cfg.progSize

/-- What the port decoder adds after the store of an `OUT` to address `a` (spec/20_memory.md R60 to R63). -/
def portEffect (s : State) (a : Nat) (v : Byte) : State :=
  let emitted := if a = s.cfg.portConsole then s.emit v else s
  if a = s.cfg.portExit then emitted.halt else emitted

/-! ### Taking a fault, and the frame of an instruction -/

/-- Taking a fault (spec/60_exceptions.md R192) in the state at the step's fetch: the record (R191) is set and
nothing else changes, so `pc` is the index of the faulting instruction. There is no return from a fault (R193, R196). -/
def takeFault (s : State) (r : Raise) : State :=
  s.withFault (some ⟨r.code, s.pc, s.progWord s.pc, r.info⟩)

/-- One instruction with `k` operand words, from the state at the step's fetch: the `k` operand fetches advance `pc`
to the last operand word (spec/40_execution_loop.md R103), the body runs, and the loop's increment follows always
(R105), unless the body raises: then all it did is undone and the fault is taken (R192). -/
def execute (s : State) (k : Nat) (body : State → Except Raise State) : Result :=
  match body (s.withPc (s.pc + k)) with
  | .ok t => .next (t.withPc (t.pc + 1))
  | .error r => .next (s.takeFault r)

/-! ### Run status, reset and the loader -/

end State

/-- The run status (spec/10_state.md R36 b). -/
inductive RunStatus where
  | running | halted | faulted
  deriving DecidableEq, Repr

/-- The run status of a state (R36 b). -/
def State.status (s : State) : RunStatus :=
  if s.fault.isSome then .faulted
  else if s.pc < s.cfg.progSize then .running else .halted

/-- `Load` (spec/70_reset_and_hazards.md R222), from index `k` on: copying stops at the first zero word, at the end of
the image and at `PROG_SIZE`; a cell that gets `BAD_WORD` is not listed. -/
def loadFrom (c : Config) : Nat → List Word → ProgStore
  | _, [] => []
  | k, w :: ws =>
    if k < c.progSize ∧ w ≠ 0 then
      if w = c.badWord then loadFrom c (k + 1) ws else (k, w) :: loadFrom c (k + 1) ws
    else []

/-- Reset of an instance with parameters `c` and a program image (R220): the values of spec/10_state.md R38 and the
program store filled by `Load`. -/
def State.resetWith (c : Config) (image : List Word) : State where
  cfg := c
  mem := []
  prog := loadFrom c 0 image
  pc := 0
  z := false
  n := false
  console := []
  diag := []
  fault := none

/-- Words placed in the program store directly from index `i` on (R223); what would lie at or past `PROG_SIZE` is
dropped. -/
def State.storeWords (s : State) (i : Nat) : List Word → State
  | [] => s
  | w :: ws =>
    if i < s.cfg.progSize then (s.withProg (Cells.set s.cfg.badWord s.prog i w)).storeWords (i + 1) ws else s

end Sys2Proof.Machine
end

