-- ==== Sys2Proof/Machine/Operands.lean ====
section
/-! DEFINITION. Every operand form of the spec (spec/30_encoding.md R86 to R89), the fetch of an instruction's words
(spec/40_execution_loop.md R101, R103), and the common shapes of the ALU, compare and jump instructions
(spec/42_arithmetic.md R142, spec/44_compare_jump.md R175). -/

namespace Sys2Proof.Machine

/-- `ValidReg(w)`: the whole word is below 16, with no masking (R86). -/
def validReg (w : Word) : Bool := decide (w.toNat < numRegs)

/-- The register number of a register operand (R86). -/
def regNo (w : Word) : Nat := w.toNat

/-- The value of an immediate operand: bits 7:0 (R88). -/
def imm8 (w : Word) : Byte := w.setWidth 8

/-- The address of an address or port operand: the whole word (R89). -/
def addrOf (w : Word) : Nat := w.toNat

/-- The program-store index of a target operand: the whole word (R89). -/
def targetOf (w : Word) : Nat := w.toNat

namespace State

/-- Up to `k` words of the program store from index `i` on, as far as the store goes. -/
def wordsFrom (s : State) : Nat → Nat → List Word
  | 0, _ => []
  | k + 1, i => if i < s.cfg.progSize then s.progWord i :: s.wordsFrom k (i + 1) else []

/-- The opcode word at `pc` and the words an instruction may take as operands (at most 2, R80). -/
def fetchWords (s : State) : List Word := s.wordsFrom 3 s.pc

/-- Fetch, Decode and the operand fetches of one step (R101, R102, R103): the instruction, or `FetchFault` at the first
operand index that is at or past `PROG_SIZE`. -/
def fetchInstr (s : State) : Except Raise Instr :=
  match decode s.cfg s.fetchWords with
  | .ok (i, _) => .ok i
  | .error e => .error (.fetchFault (s.pc + e.offset))

/-- Write-back of a flag-affecting instruction: `x[a] <- r; SetZN(r)` (R142). -/
def writeResult (s : State) (a : Word) (r : Byte) : State := (s.setReg (regNo a) r).setZN r

/-- The body of `OP a` (R142): one register, read and written; the result may depend on N (ROR, R152). -/
def aluRBody (a : Word) (f : Bool → Byte → Byte) (s : State) : Except Raise State :=
  .ok (if validReg a then s.writeResult a (f s.n (s.reg (regNo a))) else s)

/-- The body of `OP a, b` with two registers (R142): both are read before the destination is written. -/
def aluRRBody (a b : Word) (f : Byte → Byte → Byte) (s : State) : Except Raise State :=
  .ok (if validReg a && validReg b then s.writeResult a (f (s.reg (regNo a)) (s.reg (regNo b))) else s)

/-- The body of `OPI a, b` with an immediate (R142). -/
def aluRIBody (a b : Word) (f : Byte → Byte → Byte) (s : State) : Except Raise State :=
  .ok (if validReg a then s.writeResult a (f (s.reg (regNo a)) (imm8 b)) else s)

/-- The body of a conditional jump (R175): the target word is assigned to `pc` if the condition holds of Z. -/
def jumpBody (a : Word) (cond : Bool → Bool) (s : State) : Except Raise State :=
  .ok (if cond s.z then s.withPc (targetOf a) else s)

/-- `OP a` (R142). -/
def aluR (s : State) (a : Word) (f : Bool → Byte → Byte) : Result := s.execute 1 (aluRBody a f)

/-- `OP a, b` with two registers (R142). -/
def aluRR (s : State) (a b : Word) (f : Byte → Byte → Byte) : Result := s.execute 2 (aluRRBody a b f)

/-- `OPI a, b` with an immediate (R142). -/
def aluRI (s : State) (a b : Word) (f : Byte → Byte → Byte) : Result := s.execute 2 (aluRIBody a b f)

/-- A conditional jump (R175). -/
def jumpIf (s : State) (a : Word) (cond : Bool → Bool) : Result := s.execute 1 (jumpBody a cond)

end State

end Sys2Proof.Machine
end

