-- ==== Sys2Proof/Machine/Arithmetic.lean ====
section
/-! DEFINITION. The arithmetic, swap and rotate instructions (spec/42_arithmetic.md). A byte is a `BitVec 8`, so every
result is taken modulo 256 (R140). -/

namespace Sys2Proof.Machine

/-- Low byte of the product (R147). -/
def mulLow (x y : Byte) : Byte := x * y

/-- The two nibbles exchanged: `v[3:0] ++ v[7:4]` (R150). -/
def swapNibbles (v : Byte) : Byte := (v.extractLsb' 0 4 : BitVec 4) ++ (v.extractLsb' 4 4 : BitVec 4)

/-- Bit 7 from N, bits 6:0 from bits 7:1 of the operand (R152). -/
def rorByN (n : Bool) (v : Byte) : Byte := BitVec.ofBool n ++ (v.extractLsb' 1 7 : BitVec 7)

/-- ADIW a, b (R143): one byte register, despite the mnemonic. -/
def execAdiw (a b : Word) (s : State) : Result := s.aluRI a b fun x y => x + y

/-- ADD a, b (R144). -/
def execAdd (a b : Word) (s : State) : Result := s.aluRR a b fun x y => x + y

/-- SUBI a, b (R145). -/
def execSubi (a b : Word) (s : State) : Result := s.aluRI a b fun x y => x - y

/-- SUB a, b (R146). -/
def execSub (a b : Word) (s : State) : Result := s.aluRR a b fun x y => x - y

/-- MUL a, b (R147). -/
def execMul (a b : Word) (s : State) : Result := s.aluRR a b mulLow

/-- INC a (R148). -/
def execInc (a : Word) (s : State) : Result := s.aluR a fun _ x => x + 1

/-- DEC a (R149). -/
def execDec (a : Word) (s : State) : Result := s.aluR a fun _ x => x - 1

/-- The body of SWAP (R150): the one ALU instruction that writes no flags. -/
def swapBody (a : Word) (s : State) : Except Raise State :=
  .ok (if validReg a then s.setReg (regNo a) (swapNibbles (s.reg (regNo a))) else s)

/-- SWAP a (R150). -/
def execSwap (a : Word) (s : State) : Result := s.execute 1 (swapBody a)

/-- NEG a (R151). -/
def execNeg (a : Word) (s : State) : Result := s.aluR a fun _ x => 0 - x

/-- ROR a (R152): the fill bit is N as it stands when ROR begins. -/
def execRor (a : Word) (s : State) : Result := s.aluR a rorByN

end Sys2Proof.Machine
end

