-- ==== Sys2Proof/Machine/CompareJump.lean ====
section
/-! DEFINITION. Compare and conditional jump (spec/44_compare_jump.md): CPI, CP, JZ, JE, JNE. -/

namespace Sys2Proof.Machine

/-- The body of CPI (R170): flags from the difference, no write-back. -/
def cpiBody (a b : Word) (s : State) : Except Raise State :=
  .ok (if validReg a then s.setZN (s.reg (regNo a) - imm8 b) else s)

/-- CPI a, b (R170). -/
def execCpi (a b : Word) (s : State) : Result := s.execute 2 (cpiBody a b)

/-- The body of CP (R171): flags from the difference, no write-back. -/
def cpBody (a b : Word) (s : State) : Except Raise State :=
  .ok (if validReg a && validReg b then s.setZN (s.reg (regNo a) - s.reg (regNo b)) else s)

/-- CP a, b (R171). -/
def execCp (a b : Word) (s : State) : Result := s.execute 2 (cpBody a b)

/-- JZ a (R172): taken if Z. -/
def execJz (a : Word) (s : State) : Result := s.jumpIf a fun z => z

/-- JE a (R173): a synonym of JZ. -/
def execJe (a : Word) (s : State) : Result := s.jumpIf a fun z => z

/-- JNE a (R174): taken if not Z. -/
def execJne (a : Word) (s : State) : Result := s.jumpIf a fun z => !z

end Sys2Proof.Machine
end

