-- ==== Sys2Proof/Machine/ControlIo.lean ====
section
/-! DEFINITION. Termination, no-operation, port I/O and unknown words (spec/45_control_io.md): BREAK, NOP, OUT, IN, BAD,
UNKNOWN. -/

namespace Sys2Proof.Machine

/-- BREAK (R180). -/
def execBreak (s : State) : Result := s.execute 0 fun s => .ok s.halt

/-- NOP (R181). -/
def execNop (s : State) : Result := s.execute 0 fun s => .ok s

/-- The body of OUT (R182): the store first, then the port decoder, keyed on the address operand. -/
def outBody (a b : Word) (s : State) : Except Raise State :=
  if validReg b then
    (s.writeByte (addrOf a) (s.reg (regNo b))).bind fun t => .ok (t.portEffect (addrOf a) (s.reg (regNo b)))
  else .ok s

/-- OUT a, b (R182). -/
def execOut (a b : Word) (s : State) : Result := s.execute 2 (outBody a b)

/-- The body of IN (R183): a plain memory read; no address is special. -/
def inBody (a b : Word) (s : State) : Except Raise State :=
  if validReg a then (s.readByte (addrOf b)).bind fun v => .ok (s.setReg (regNo a) v) else .ok s

/-- IN a, b (R183). -/
def execIn (a b : Word) (s : State) : Result := s.execute 2 (inBody a b)

/-- BAD (R184): `BAD_WORD` behaves as any unknown opcode. -/
def execBad (s : State) : Result := s.execute 0 fun s => .ok (s.logDiag s.pc s.cfg.badWord)

/-- UNKNOWN (R185): the optional diagnostic, no other change; `pc` advances by 1. -/
def execUnknown (w : Word) (s : State) : Result := s.execute 0 fun s => .ok (s.logDiag s.pc w)

end Sys2Proof.Machine
end

