-- ==== Sys2Proof/Machine/DataMovement.lean ====
section
/-! DEFINITION. The data movement instructions (spec/41_data_movement.md): LDI, MOV, MOVW, PUSH, POP. A body is a rule's
pseudocode after the operand fetches; the meaning is the body in the frame of its operand count. -/

namespace Sys2Proof.Machine

/-- LDI a, b (R120). -/
def execLdi (a b : Word) (s : State) : Result := s.aluRI a b fun _ v => v

/-- The body of MOV (R121). -/
def movBody (a b : Word) (s : State) : Except Raise State :=
  .ok (if validReg a && validReg b then s.setReg (regNo a) (s.reg (regNo b)) else s)

/-- MOV a, b (R121). -/
def execMov (a b : Word) (s : State) : Result := s.execute 2 (movBody a b)

/-- The body of MOVW (R122): both operands are checked against the memory size; the high bytes may still fault; the
source word is read completely before the destination is written. -/
def movwBody (a b : Word) (s : State) : Except Raise State :=
  if addrOf a < s.cfg.memSize ∧ addrOf b < s.cfg.memSize then
    (s.readWord (addrOf b)).bind fun w => s.writeWord (addrOf a) w
  else .ok s

/-- MOVW a, b (R122). -/
def execMovw (a b : Word) (s : State) : Result := s.execute 2 (movwBody a b)

/-- The body of PUSH (R123): the byte is stored at SP, then SP, read again, is decremented modulo 65536. -/
def pushBody (a : Word) (s : State) : Except Raise State :=
  if validReg a then
    (s.readWord s.cfg.spAddr).bind fun sp =>
    (s.writeByte sp.toNat (s.reg (regNo a))).bind fun s1 =>
    (s1.readWord s1.cfg.spAddr).bind fun sp2 =>
    s1.writeWord s1.cfg.spAddr (sp2 - 1)
  else .ok s

/-- PUSH a (R123). -/
def execPush (a : Word) (s : State) : Result := s.execute 1 (pushBody a)

/-- The body of POP (R124): SP is incremented modulo 65536, checked and stored; the byte is read at the updated SP. -/
def popBody (a : Word) (s : State) : Except Raise State :=
  if validReg a then
    (s.readWord s.cfg.spAddr).bind fun old =>
    if (old + 1).toNat < s.cfg.memSize then
      (s.writeWord s.cfg.spAddr (old + 1)).bind fun s1 =>
      (s1.readWord s1.cfg.spAddr).bind fun sp =>
      (s1.readByte sp.toNat).bind fun v => .ok (s1.setReg (regNo a) v)
    else .error (.memFault (old + 1).toNat)
  else .ok s

/-- POP a (R124). -/
def execPop (a : Word) (s : State) : Result := s.execute 1 (popBody a)

end Sys2Proof.Machine
end

