-- ==== Sys2Proof/Machine/Logic.lean ====
section
/-! DEFINITION. The bitwise logic instructions (spec/43_logic.md): ANDI, AND, ORI, OR, EOR. -/

namespace Sys2Proof.Machine

/-- ANDI a, b (R160). -/
def execAndi (a b : Word) (s : State) : Result := s.aluRI a b fun x y => x &&& y

/-- AND a, b (R161). -/
def execAnd (a b : Word) (s : State) : Result := s.aluRR a b fun x y => x &&& y

/-- ORI a, b (R162). -/
def execOri (a b : Word) (s : State) : Result := s.aluRI a b fun x y => x ||| y

/-- OR a, b (R163). -/
def execOr (a b : Word) (s : State) : Result := s.aluRR a b fun x y => x ||| y

/-- EOR a, b (R164). -/
def execEor (a b : Word) (s : State) : Result := s.aluRR a b fun x y => x ^^^ y

end Sys2Proof.Machine
end

