-- ==== Sys2Proof/Machine/Dispatch.lean ====
section
/-! DEFINITION. Execute (spec/40_execution_loop.md R104): one arm per instruction, each a direct call of its meaning. -/

namespace Sys2Proof.Machine

def exec (i : Instr) (s : State) : Host.Outcome State Fault Refusal :=
  match i with
  | .ldi a b => Sys2Proof.Machine.execLdi a b s
  | .mov a b => Sys2Proof.Machine.execMov a b s
  | .movw a b => Sys2Proof.Machine.execMovw a b s
  | .push a => Sys2Proof.Machine.execPush a s
  | .pop a => Sys2Proof.Machine.execPop a s
  | .adiw a b => Sys2Proof.Machine.execAdiw a b s
  | .add a b => Sys2Proof.Machine.execAdd a b s
  | .subi a b => Sys2Proof.Machine.execSubi a b s
  | .sub a b => Sys2Proof.Machine.execSub a b s
  | .mul a b => Sys2Proof.Machine.execMul a b s
  | .inc a => Sys2Proof.Machine.execInc a s
  | .dec a => Sys2Proof.Machine.execDec a s
  | .swap a => Sys2Proof.Machine.execSwap a s
  | .neg a => Sys2Proof.Machine.execNeg a s
  | .ror a => Sys2Proof.Machine.execRor a s
  | .andi a b => Sys2Proof.Machine.execAndi a b s
  | .and a b => Sys2Proof.Machine.execAnd a b s
  | .ori a b => Sys2Proof.Machine.execOri a b s
  | .or a b => Sys2Proof.Machine.execOr a b s
  | .eor a b => Sys2Proof.Machine.execEor a b s
  | .cpi a b => Sys2Proof.Machine.execCpi a b s
  | .cp a b => Sys2Proof.Machine.execCp a b s
  | .jz a => Sys2Proof.Machine.execJz a s
  | .je a => Sys2Proof.Machine.execJe a s
  | .jne a => Sys2Proof.Machine.execJne a s
  | .brk => Sys2Proof.Machine.execBreak s
  | .nop => Sys2Proof.Machine.execNop s
  | .out a b => Sys2Proof.Machine.execOut a b s
  | .inp a b => Sys2Proof.Machine.execIn a b s
  | .bad => Sys2Proof.Machine.execBad s
  | .unknown w => Sys2Proof.Machine.execUnknown w s

end Sys2Proof.Machine
end

