-- ==== Sys2Proof/Machine/Step.lean ====
section
/-! DEFINITION. One step of the loop (spec/40_execution_loop.md R100). -/

namespace Sys2Proof.Machine

/-- One iteration of the loop: enabled iff `pc < PROG_SIZE` and no fault is recorded (R100, R108). The instruction is
fetched and decoded with its operands, or the fetch takes `FetchFault` (R103); then it executes (R104), which
includes the loop's increment (`State.execute`, R105). -/
def step (s : State) : Host.Outcome State Fault Refusal :=
  match s.fault with
  | some r => .fault (.faulted r)
  | none =>
    if s.pc < s.cfg.progSize then
      match s.fetchInstr with
      | .ok i => exec i s
      | .error r => .next (s.takeFault r)
    else .fault .halted

/-- `s` with an instruction of the opcode table placed in the program store at `pc` (R223: the store may be given
directly); words past the end of the store are dropped. -/
def State.withFetchWord (s : State) (nbits w : Nat) : State :=
  s.storeWords s.pc (tableWords nbits w)

end Sys2Proof.Machine
end

