-- ==== Sys2Proof/Safety.lean ====
section
/-! DEFINITION. The words claims are stated in: what a running, ended or faulted core is, the invariant of every run,
what each instruction may write, emit, log, raise and where it leaves `pc` (the spec's summary tables), and what it
means that a mnemonic is encoded by its opcode word and `k` operand words. Nothing here is used by the machine. -/

namespace Sys2Proof.Machine

/-- A step is enabled (spec/40_execution_loop.md R100). -/
abbrev State.Running (s : State) : Prop := s.fault = none ∧ s.pc < s.cfg.progSize

/-- The run has ended normally (R107). -/
abbrev State.EndedNormally (s : State) : Prop := s.fault = none ∧ s.cfg.progSize ≤ s.pc

/-- What holds of every state of a run. -/
structure State.Inv (s : State) : Prop where
  /-- The parameters meet the constraints of spec/00_scope.md R5. -/
  valid : s.cfg.Valid
  /-- `MEM` is in canonical form. -/
  memWf : s.mem.wf = true
  /-- No cell at or above `MEM_SIZE` exists (spec/10_state.md R20). -/
  memRange : Cells.below s.cfg.memSize s.mem = true
  /-- `PROG` is in canonical form. -/
  progWf : Cells.wf s.cfg.badWord s.prog = true
  /-- No program word at or above `PROG_SIZE` exists (R28). -/
  progRange : Cells.below s.cfg.progSize s.prog = true
  /-- The range of `pc` (R32). -/
  pcBound : s.pc ≤ max 65535 s.cfg.progSize + 1
  /-- `DIAG` is present only when `DIAG_LOG` is true (R36 c). -/
  diagOff : s.cfg.diagLog = false → s.diag = []
  /-- The fault record speaks of the instruction at `pc`, and of an address or index out of range (R191, R192). -/
  faultPrecise : ∀ r, s.fault = some r →
    s.pc < s.cfg.progSize ∧ r.index = s.pc ∧ r.word = s.progWord s.pc ∧
    (r.code = .memFault → s.cfg.memSize ≤ r.info) ∧ (r.code = .fetchFault → s.cfg.progSize ≤ r.info)

/-- The words of `i` stand at `pc` and lie inside the program store. -/
def State.Holds (s : State) (i : Instr) : Prop :=
  ∀ k w, (encode s.cfg i)[k]? = some w → s.pc + k < s.cfg.progSize ∧ s.progWord (s.pc + k) = w

/-- `x[a] <- v mod 256; SetZN(v mod 256)` for an exact integer result `v`, and `pc` moved past `len` words
(spec/42_arithmetic.md R140, spec/10_state.md R34). -/
def State.withResult (s : State) (a : Word) (v : Int) (len : Nat) : State :=
  { s with
    mem := s.mem.write a.toNat (BitVec.ofInt 8 v)
    z := decide (v % 256 = 0)
    n := decide (128 ≤ v % 256)
    pc := s.pc + len }

/-- `SetZN(v mod 256)` without write-back, and `pc` moved past `len` words. -/
def State.withComparison (s : State) (v : Int) (len : Nat) : State :=
  { s with z := decide (v % 256 = 0), n := decide (128 ≤ v % 256), pc := s.pc + len }

/-- Register `w` as an exact integer. -/
def State.regInt (s : State) (w : Word) : Int := (s.mem.read w.toNat).toNat

/-- The byte value of an immediate as an exact integer: `w mod 256` (R88). -/
def immInt (w : Word) : Int := (w.toNat % 256 : Nat)

/-- The record of a `FetchFault` taken at `pc` by the instruction whose opcode word is `w`. -/
def State.fetchFaulted (s : State) (w : Word) : State :=
  { s with fault := some ⟨.fetchFault, s.pc, w, s.cfg.progSize⟩ }

/-- The record of a `MemFault` at data address `a` taken at `pc`. -/
def State.memFaulted (s : State) (a : Nat) : State :=
  { s with fault := some ⟨.memFault, s.pc, s.progWord s.pc, a⟩ }

/-- The encoding clause and the common clause of an instruction rule: the default opcode number is `num`; wherever the
opcode word of `m` stands at `pc` of a running core, the step takes the next `k` words as operands and executes `mk`
of them, or takes `FetchFault` if they do not all lie in the store. -/
def EncodedAs (m : Mnemonic) (num k : Nat) (mk : Word → Word → Instr) : Prop :=
  Config.default.opc.code m = BitVec.ofNat 16 num ∧
  ∀ s : State, s.cfg.Valid → s.Running → s.progWord s.pc = s.cfg.opc.code m →
    (s.pc + k < s.cfg.progSize →
      step s = exec (mk (s.progWord (s.pc + 1)) (s.progWord (s.pc + 2))) s) ∧
    (s.cfg.progSize ≤ s.pc + k → step s = .next (s.fetchFaulted (s.cfg.opc.code m)))

end Sys2Proof.Machine

namespace Sys2Proof

open Sys2Proof.Machine

/-- The flag-affecting instructions (spec/10_state.md R35, first two rows). -/
def Instr.flagAffecting : Instr → Bool
  | .ldi _ _ | .adiw _ _ | .add _ _ | .subi _ _ | .sub _ _ | .mul _ _ | .inc _ | .dec _ | .neg _ | .ror _
  | .andi _ _ | .and _ _ | .ori _ _ | .or _ _ | .eor _ _ | .cpi _ _ | .cp _ _ => true
  | .mov _ _ | .movw _ _ | .push _ | .pop _ | .swap _ | .jz _ | .je _ | .jne _ | .brk | .nop | .out _ _ | .inp _ _
  | .bad | .unknown _ => false

/-- Whether an instruction writes Z and N: it is flag-affecting and its register operands are valid (spec/10_state.md R35,
spec/30_encoding.md R87). -/
def Instr.writesFlags (i : Instr) : Bool :=
  i.flagAffecting && i.regOperands.all fun w => decide (w.toNat < 16)

/-- The data address of the `MemFault` an instruction takes, if it takes one (spec/60_exceptions.md R190 row 4, in the
order of R194: operand validity first). -/
def Instr.memFaultAt (s : State) : Instr → Option Nat
  | .movw a b =>
    if a.toNat < s.cfg.memSize ∧ b.toNat < s.cfg.memSize then
      if b.toNat + 1 = s.cfg.memSize then some s.cfg.memSize
      else if a.toNat + 1 = s.cfg.memSize then some s.cfg.memSize else none
    else none
  | .push a => if a.toNat < 16 ∧ s.cfg.memSize ≤ s.sp.toNat then some s.sp.toNat else none
  | .pop a =>
    if a.toNat < 16 ∧ s.cfg.memSize ≤ (s.sp.toNat + 1) % 65536 then some ((s.sp.toNat + 1) % 65536) else none
  | .out a b => if b.toNat < 16 ∧ s.cfg.memSize ≤ a.toNat then some a.toNat else none
  | .inp a b => if a.toNat < 16 ∧ s.cfg.memSize ≤ b.toNat then some b.toNat else none
  | .ldi _ _ | .mov _ _ | .adiw _ _ | .add _ _ | .subi _ _ | .sub _ _ | .mul _ _ | .inc _ | .dec _ | .swap _ | .neg _
  | .ror _ | .andi _ _ | .and _ _ | .ori _ _ | .or _ _ | .eor _ _ | .cpi _ _ | .cp _ _ | .jz _ | .je _ | .jne _
  | .brk | .nop | .bad | .unknown _ => none

/-- The cells an instruction may write, if it takes no fault and does not degrade to a no-op (spec/10_state.md R24,
spec/20_memory.md R54). -/
def Instr.stores (s : State) : Instr → List Nat
  | .ldi a _ | .mov a _ | .adiw a _ | .add a _ | .subi a _ | .sub a _ | .mul a _ | .inc a | .dec a | .swap a | .neg a
  | .ror a | .andi a _ | .and a _ | .ori a _ | .or a _ | .eor a _ | .inp a _ => [a.toNat]
  | .movw a b => if a.toNat < s.cfg.memSize ∧ b.toNat < s.cfg.memSize then [a.toNat, a.toNat + 1] else []
  | .push _ => [s.sp.toNat, s.cfg.spAddr, s.cfg.spAddr + 1]
  | .pop a => [s.cfg.spAddr, s.cfg.spAddr + 1, a.toNat]
  | .out a _ => [a.toNat]
  | .cpi _ _ | .cp _ _ | .jz _ | .je _ | .jne _ | .brk | .nop | .bad | .unknown _ => []

/-- The cells an instruction writes: none if a register operand is invalid (R87) or the instruction faults (R192). -/
def Instr.written (s : State) (i : Instr) : List Nat :=
  if (i.regOperands.all fun w => decide (w.toNat < 16)) ∧ i.memFaultAt s = none then i.stores s else []

/-- The console bytes an instruction emits: one, by an `OUT` of a valid register to the console port (R61, R62). -/
def Instr.emits (s : State) : Instr → List Byte
  | .out a b => if b.toNat < 16 ∧ a.toNat = s.cfg.portConsole then [s.mem.read b.toNat] else []
  | .ldi _ _ | .mov _ _ | .movw _ _ | .push _ | .pop _ | .adiw _ _ | .add _ _ | .subi _ _ | .sub _ _ | .mul _ _
  | .inc _ | .dec _ | .swap _ | .neg _ | .ror _ | .andi _ _ | .and _ _ | .ori _ _ | .or _ _ | .eor _ _ | .cpi _ _
  | .cp _ _ | .jz _ | .je _ | .jne _ | .brk | .nop | .inp _ _ | .bad | .unknown _ => []

/-- The diagnostic an instruction logs when `DIAG_LOG` is true (spec/45_control_io.md R184, R185). -/
def Instr.logs (s : State) : Instr → List (Nat × Word)
  | .bad => [(s.pc, s.cfg.badWord)]
  | .unknown w => [(s.pc, w)]
  | .ldi _ _ | .mov _ _ | .movw _ _ | .push _ | .pop _ | .adiw _ _ | .add _ _ | .subi _ _ | .sub _ _ | .mul _ _
  | .inc _ | .dec _ | .swap _ | .neg _ | .ror _ | .andi _ _ | .and _ _ | .ori _ _ | .or _ _ | .eor _ _ | .cpi _ _
  | .cp _ _ | .jz _ | .je _ | .jne _ | .brk | .nop | .out _ _ | .inp _ _ => []

/-- Where an instruction that takes no fault leaves `pc` (the summary table of spec/10_state.md R31). -/
def Instr.nextPc (s : State) : Instr → Nat
  | .jz a | .je a => if s.z then a.toNat + 1 else s.pc + 2
  | .jne a => if s.z then s.pc + 2 else a.toNat + 1
  | .brk => s.cfg.progSize + 1
  | .out a b => if b.toNat < 16 ∧ a.toNat = s.cfg.portExit then s.cfg.progSize + 1 else s.pc + 3
  | .push _ | .pop _ | .inc _ | .dec _ | .swap _ | .neg _ | .ror _ => s.pc + 2
  | .nop | .bad | .unknown _ => s.pc + 1
  | .ldi _ _ | .mov _ _ | .movw _ _ | .adiw _ _ | .add _ _ | .subi _ _ | .sub _ _ | .mul _ _ | .andi _ _ | .and _ _
  | .ori _ _ | .or _ _ | .eor _ _ | .cpi _ _ | .cp _ _ | .inp _ _ => s.pc + 3

end Sys2Proof
end

