-- ==== Sys2Proof/Certificates/Slice0/Obligations.lean ====
section
/-! DEFINITION. The statements for the provers. Register results are stated over exact integers (`State.withResult`:
`v mod 256` is stored, the flags are those of `v mod 256`), next states as whole states, so each result statement is
also a frame: nothing else changes. Every statement holds for every valid parameter set (spec/00_scope.md R5), not for
the defaults alone. The `FetchFault` clause of `EncodedAs` is the spec's decision D14 (log entry 3). -/

open Sys2Proof Sys2Proof.Machine

/-! ### Memory -/

/-- R52: a byte access touches exactly one cell. -/
def Obligations.ByteAccessTouchesExactlyOneCell : Prop :=
  ∀ (s : State) (a : Nat) (v : Byte), s.mem.wf = true → a < s.cfg.memSize →
    s.readByte a = .ok (s.mem.read a) ∧
    ∃ t, s.writeByte a v = .ok t ∧ t.mem.read a = v ∧ (∀ b, b ≠ a → t.mem.read b = s.mem.read b) ∧
      { t with mem := s.mem } = s

/-- R53: a word access is two byte accesses to adjacent cells, low byte first. -/
def Obligations.WordAccessIsLittleEndian : Prop :=
  ∀ (s : State) (a : Nat) (v : Word), s.mem.wf = true → a + 1 < s.cfg.memSize →
    s.readWord a = .ok (BitVec.ofNat 16 ((s.mem.read a).toNat + 256 * (s.mem.read (a + 1)).toNat)) ∧
    ∃ t, s.writeWord a v = .ok t ∧
      (t.mem.read a).toNat = v.toNat % 256 ∧ (t.mem.read (a + 1)).toNat = v.toNat / 256 ∧
      (∀ b, b ≠ a → b ≠ a + 1 → t.mem.read b = s.mem.read b) ∧ { t with mem := s.mem } = s ∧ t.readWord a = .ok v

/-- An access out of range names the first cell that is out of range (spec/00_scope.md section 4, MemRead and MemWrite;
decision D13 of the spec, log entry 3). -/
def Obligations.OutOfRangeAccessNamesTheFirstCell : Prop :=
  ∀ (s : State) (a : Nat) (v : Byte) (w : Word),
    (s.cfg.memSize ≤ a →
      s.readByte a = .error (.memFault a) ∧ s.writeByte a v = .error (.memFault a) ∧
      s.readWord a = .error (.memFault a) ∧ s.writeWord a w = .error (.memFault a)) ∧
    (a + 1 = s.cfg.memSize →
      s.readWord a = .error (.memFault s.cfg.memSize) ∧ s.writeWord a w = .error (.memFault s.cfg.memSize))

/-- The model's own representation (log entry 5): every write keeps the canonical form, and two canonical memories that
read alike at every address are equal. -/
def Obligations.MemoryCanonicalFormIsKeptAndUnique : Prop :=
  (∀ (m : Memory) (a : Nat) (v : Byte), m.wf = true → (m.write a v).wf = true) ∧
  (∀ m m' : Memory, m.wf = true → m'.wf = true → (∀ a, m.read a = m'.read a) → m = m')

/-! ### Reset and loading -/

/-- Every piece of state after reset, the rows of the table of spec/10_state.md section 7 (the flags by decision D23, log
entry 7). PROG holds the words of the image up to its first zero word or its end, as far as the store goes, then
BAD_WORD (decision D22, log entry 7). State.reset is the case of the default parameters and no image (log entry 2). -/
def Obligations.ResetLeavesEverythingDefinite : Prop :=
  (∀ (c : Config) (image : List Word),
    let s := State.resetWith c image
    s.cfg = c ∧ (∀ a, s.mem.read a = 0) ∧ s.sp = 0 ∧ s.pc = 0 ∧ s.z = false ∧ s.n = false ∧ s.console = [] ∧
      s.diag = [] ∧ s.fault = none ∧ (c.Valid → s.status = .running) ∧
      ∀ k, k < c.progSize → s.progWord k = (image.takeWhile (fun w => w != 0))[k]?.getD c.badWord) ∧
  State.reset = State.resetWith Config.default []

/-- Load copies word `k` if no word up to it is zero or missing; every other cell holds BAD_WORD
(spec/70_reset_and_hazards.md section 1, decision D22). -/
def Obligations.LoaderCopiesUpToTheSentinel : Prop :=
  ∀ (c : Config) (image : List Word) (k : Nat), k < c.progSize →
    ((∀ j, j ≤ k → image.getD j 0 ≠ 0) → (State.resetWith c image).progWord k = image.getD k 0) ∧
    (¬ (∀ j, j ≤ k → image.getD j 0 ≠ 0) → (State.resetWith c image).progWord k = c.badWord)

/-- The invariant holds after reset, for every valid parameter set and every image. -/
def Obligations.ResetSatisfiesTheInvariant : Prop :=
  State.reset.Inv ∧ ∀ (c : Config) (image : List Word), c.Valid → (State.resetWith c image).Inv

/-! ### Encoding -/

/-- The default opcode numbers (spec/30_encoding.md section 2, decisions D1 to D3, log entries 1 and 7) on words written
out from its table: a few instructions, BAD_WORD, an unknown word, and a word that differs from LDI's in a high bit. That
an instruction is given as one number, word 0 in its low 16 bits, is the model's choice (log entry 8). -/
def Obligations.SampleWordsDecodeAsTheTableSays : Prop :=
  decodeTableWord 48 0x008000080000 = some (.ldi 8 128) ∧
  decodeTableWord 48 0x0000000E0002 = some (.movw 14 0) ∧
  decodeTableWord 32 0x00020003 = some (.push 2) ∧
  decodeTableWord 48 0x000100000006 = some (.add 0 1) ∧
  decodeTableWord 32 0x0008000E = some (.ror 8) ∧
  decodeTableWord 48 0x00020001000F = some (.andi 1 2) ∧
  decodeTableWord 48 0x000200010015 = some (.cp 1 2) ∧
  decodeTableWord 32 0x001E0017 = some (.je 30) ∧
  decodeTableWord 16 0x0019 = some .brk ∧
  decodeTableWord 48 0x00080010001B = some (.out 16 8) ∧
  decodeTableWord 16 0xFFFF = some .bad ∧
  decodeTableWord 16 0x001D = some (.unknown 0x001D) ∧
  decodeTableWord 16 0x0100 = some (.unknown 0x0100) ∧
  Mnemonic.all.map Config.default.opc.code = (List.range 29).map (BitVec.ofNat 16)

/-- Decoding an encoded well-formed instruction gives it back, under every valid parameter set, whatever words follow. -/
def Obligations.DecodeOfEncodeIsTheInstruction : Prop :=
  ∀ (c : Config) (i : Instr) (rest : List Word), c.Valid → i.wf c = true →
    decode c (encode c i ++ rest) = .ok (i, rest)

/-- Every decoded instruction is well-formed and its encoding is the words it was decoded from: each word sequence has
one meaning. -/
def Obligations.EncodeOfDecodeIsTheWords : Prop :=
  ∀ (c : Config) (ws : List Word) (i : Instr) (rest : List Word), decode c ws = .ok (i, rest) →
    i.wf c = true ∧ ws = encode c i ++ rest

/-! ### The step -/

/-- The words a step fetches are those of the at most three cells from pc on that lie in the store; when they decode to
an instruction, the step of a running core is exec of it (which includes the loop's increment). -/
def Obligations.StepRunsTheDecodedInstruction : Prop :=
  (∀ (s : State) (k : Nat),
    s.fetchWords[k]? = if k < 3 ∧ s.pc + k < s.cfg.progSize then some (s.progWord (s.pc + k)) else none) ∧
  ∀ (s : State) (i : Instr) (rest : List Word), s.Running → decode s.cfg s.fetchWords = .ok (i, rest) →
    step s = exec i s

/-- A well-formed instruction whose words stand at pc, inside the store, is what the step executes. -/
def Obligations.StoredEncodingIsExecuted : Prop :=
  ∀ (s : State) (i : Instr), s.cfg.Valid → s.Running → i.wf s.cfg = true → s.Holds i → step s = exec i s

/-- An instruction whose operand words do not all lie in the store takes FetchFault at index PROG_SIZE and changes
nothing else (spec/40_execution_loop.md section 1, decision D14). -/
def Obligations.OperandPastTheStoreTakesFetchFault : Prop :=
  ∀ (s : State) (m : Mnemonic), s.cfg.Valid → s.Running → s.progWord s.pc = s.cfg.opc.code m →
    s.cfg.progSize ≤ s.pc + m.format.kinds.length → step s = .next (s.fetchFaulted (s.cfg.opc.code m))

/-- A step answers a next state exactly when the core is running; a faulted core and a halted core stop by name
(spec/40_execution_loop.md sections 1 and 3, decision D28, log entry 4). Every word is a legal opcode to fetch. -/
def Obligations.StepIsEnabledExactlyWhenRunning : Prop :=
  ∀ s : State,
    (s.status = .running ↔ ∃ t, step s = .next t) ∧
    (∀ r, s.fault = some r → step s = .fault (.faulted r)) ∧
    (s.fault = none → s.cfg.progSize ≤ s.pc → step s = .fault .halted)

/-- R29: no instruction writes the program store, and only the fetch reads it: with another store, an instruction that
takes no fault does the same. The parameters do not change either. -/
def Obligations.ProgramStoreIsImmutableAndOnlyFetched : Prop :=
  (∀ s t : State, step s = .next t → t.prog = s.prog ∧ t.cfg = s.cfg) ∧
  (∀ (i : Instr) (s t : State) (p : ProgStore), s.fault = none → exec i s = .next t → t.fault = none →
    exec i (s.withProg p) = .next (t.withProg p))

/-- Where every instruction leaves pc: the table of spec/10_state.md section 3 (an inference the spec marks as derived),
and pc itself if it takes a fault. -/
def Obligations.PcAfterEachInstruction : Prop :=
  ∀ (i : Instr) (s t : State), s.cfg.Valid → s.fault = none → exec i s = .next t →
    (t.fault = none → t.pc = i.nextPc s) ∧ (t.fault ≠ none → t.pc = s.pc)

/-- Exactly MOVW, PUSH, POP, OUT and IN can take MemFault, when and at which address `Instr.memFaultAt` says; on every
other state every instruction completes without a fault (spec/60_exceptions.md sections 1 and 3, decisions D13, D16). -/
def Obligations.MemFaultsAreExactlyTheListedOnes : Prop :=
  ∀ (i : Instr) (s : State), s.cfg.Valid → s.mem.wf = true → s.fault = none →
    (∀ a, i.memFaultAt s = some a → exec i s = .next (s.memFaulted a)) ∧
    (i.memFaultAt s = none → ∃ t, exec i s = .next t ∧ t.fault = none)

/-- A step that takes a fault changes nothing but the fault record, which names the instruction at pc
(spec/60_exceptions.md section 2, decision D19). -/
def Obligations.FaultsArePrecise : Prop :=
  ∀ (s t : State) (r : FaultRecord), s.Running → step s = .next t → t.fault = some r →
    t = { s with fault := some r } ∧ r.index = s.pc ∧ r.word = s.progWord s.pc ∧
      (r.code.number = 1 ∧ s.cfg.memSize ≤ r.info ∨ r.code.number = 2 ∧ s.cfg.progSize ≤ r.info)

/-! ### Whole-machine frames -/

/-- Every instruction leaves every cell outside `Instr.written` as it was (the stored cells, computed from the operands
and SP; no cell at all for a compare, a jump, BREAK, NOP, an unknown word, a degraded or a faulting instruction). -/
def Obligations.EveryInstructionWritesOnlyItsCells : Prop :=
  ∀ (i : Instr) (s t : State), s.cfg.Valid → exec i s = .next t →
    (∀ a, a ∉ i.written s → t.mem.read a = s.mem.read a) ∧ t.prog = s.prog ∧ t.cfg = s.cfg

/-- Only the flag-affecting instructions write Z and N, and not when a register operand is invalid
(spec/10_state.md section 4). -/
def Obligations.FlagsWrittenOnlyByFlagAffectingInstructions : Prop :=
  ∀ (i : Instr) (s t : State), exec i s = .next t →
    (i.flagAffecting = false ∨ ∃ w ∈ i.regOperands, 16 ≤ w.toNat) → t.z = s.z ∧ t.n = s.n

/-- Nothing reads N except ROR, and nothing reads Z except JZ, JE, JNE: with another value of the flag the whole next
state comes out the same, the flag itself included if the instruction writes the flags, else with the other value carried
through (spec/10_state.md section 4). -/
def Obligations.FlagsReadOnlyByRorAndJumps : Prop :=
  ∀ (i : Instr) (s t : State), exec i s = .next t →
    (∀ n', (∀ a, i ≠ .ror a) →
      exec i (s.withFlags s.z n') = .next (t.withFlags t.z (if i.writesFlags then t.n else n'))) ∧
    (∀ z', (∀ a, i ≠ .jz a ∧ i ≠ .je a ∧ i ≠ .jne a) →
      exec i (s.withFlags z' s.n) = .next (t.withFlags (if i.writesFlags then t.z else z') t.n))

/-- R61: the port decoder is keyed on the address operand of OUT and on nothing else. Whatever the instruction, what is
appended to the console is `Instr.emits`; MOVW, PUSH, POP and IN neither emit nor end the run, whatever they address. -/
def Obligations.PortsActOnlyThroughOut : Prop :=
  (∀ (i : Instr) (s t : State), s.cfg.Valid → exec i s = .next t → t.console = s.console ++ i.emits s) ∧
  (∀ (s t : State) (a b : Word), s.cfg.Valid → s.fault = none → t.fault = none →
    (exec (.movw a b) s = .next t ∨ exec (.inp a b) s = .next t → t.console = s.console ∧ t.pc = s.pc + 3) ∧
    (exec (.push a) s = .next t ∨ exec (.pop a) s = .next t → t.console = s.console ∧ t.pc = s.pc + 2))

/-- Only BAD and unknown words are logged, one pair each, and only if DIAG_LOG is true (spec/45_control_io.md, the
diagnostic event, decision D20). -/
def Obligations.DiagnosticOnlyForUnknownWords : Prop :=
  ∀ (i : Instr) (s t : State), exec i s = .next t →
    t.diag = s.diag ++ (if s.cfg.diagLog then i.logs s else [])

/-- The outputs never influence a step: two cores that differ only in CONSOLE, DIAG and DIAG_LOG step alike
(spec/10_state.md section 5, spec/45_control_io.md, the diagnostic event). -/
def Obligations.OutputsNeverInfluenceAStep : Prop :=
  ∀ (s t : State) (con : List Byte) (dia : List (Nat × Word)) (log : Bool), step s = .next t →
    ∃ t', step { s with console := con, diag := dia, cfg := { s.cfg with diagLog := log } } = .next t' ∧
      { t' with console := t.console, diag := t.diag, cfg := t.cfg } = t

/-- An instruction with an invalid register operand advances past its words and does nothing else, and takes no fault
even if another operand is out of range (spec/30_encoding.md section 3, decisions D10, D12, D16). -/
def Obligations.InvalidRegisterOperandMakesANoOp : Prop :=
  ∀ (i : Instr) (s : State) (w : Word), w ∈ i.regOperands → 16 ≤ w.toNat →
    exec i s = .next { s with pc := s.pc + i.length }

/-- A register and the cell of the same address are one storage: OUT to, and IN from, an address below 16 is MOV
(spec/10_state.md section 1, an inference the spec marks as derived). -/
def Obligations.RegistersAreTheFirstCells : Prop :=
  ∀ (a b : Word) (s : State), s.cfg.Valid →
    (a.toNat < 16 → exec (.out a b) s = exec (.mov a b) s) ∧
    (b.toNat < 16 → exec (.inp a b) s = exec (.mov a b) s)

/-! ### Data movement -/

/-- R120: LDI loads the low byte of the immediate and sets both flags from it; with an invalid register it is a no-op. -/
def Obligations.LdiLoadsTheLowByteAndSetsFlags : Prop :=
  EncodedAs .ldi 0 2 Instr.ldi ∧
  ∀ (s : State) (a b : Word),
    (a.toNat < 16 → exec (.ldi a b) s = .next (s.withResult a (immInt b) 3)) ∧
    (16 ≤ a.toNat → exec (.ldi a b) s = .next { s with pc := s.pc + 3 })

/-- R121: MOV copies a register and writes no flag. -/
def Obligations.MovCopiesARegister : Prop :=
  EncodedAs .mov 1 2 Instr.mov ∧
  ∀ (s : State) (a b : Word),
    (a.toNat < 16 → b.toNat < 16 →
      exec (.mov a b) s =
        .next { s with mem := s.mem.write a.toNat (s.mem.read b.toNat), pc := s.pc + 3 }) ∧
    (16 ≤ a.toNat ∨ 16 ≤ b.toNat → exec (.mov a b) s = .next { s with pc := s.pc + 3 })

/-- MOVW copies the two bytes at `b`, read before either is written, to `a`; an operand at or above MEM_SIZE makes it a
no-op; a high byte out of range takes MemFault, the source's first (decisions D13, D17). -/
def Obligations.MovwCopiesAWord : Prop :=
  EncodedAs .movw 2 2 Instr.movw ∧
  ∀ (s : State) (a b : Word),
    (a.toNat + 1 < s.cfg.memSize → b.toNat + 1 < s.cfg.memSize →
      exec (.movw a b) s = .next { s with
        mem := (s.mem.write a.toNat (s.mem.read b.toNat)).write (a.toNat + 1) (s.mem.read (b.toNat + 1))
        pc := s.pc + 3 }) ∧
    (s.cfg.memSize ≤ a.toNat ∨ s.cfg.memSize ≤ b.toNat → exec (.movw a b) s = .next { s with pc := s.pc + 3 }) ∧
    (a.toNat < s.cfg.memSize → b.toNat < s.cfg.memSize →
      a.toNat + 1 = s.cfg.memSize ∨ b.toNat + 1 = s.cfg.memSize →
      exec (.movw a b) s = .next (s.memFaulted s.cfg.memSize))

/-- PUSH stores the register at SP, then decrements SP, read again after the store, modulo 65536 (decisions D8, D18);
an SP out of range takes MemFault (D13); an invalid register makes it a no-op. Last, where SP is not one of its own
cells: the byte stands at the old SP and SP is one less. -/
def Obligations.PushStoresThenDecrements : Prop :=
  EncodedAs .push 3 1 (fun a _ => .push a) ∧
  ∀ (s : State) (a : Word), s.cfg.Valid →
    (a.toNat < 16 → s.sp.toNat < s.cfg.memSize →
      let stored := s.mem.write s.sp.toNat (s.mem.read a.toNat)
      let sp2 := (stored.read s.cfg.spAddr).toNat + 256 * (stored.read (s.cfg.spAddr + 1)).toNat
      let new := (sp2 + 65535) % 65536
      exec (.push a) s = .next { s with
        mem := (stored.write s.cfg.spAddr (BitVec.ofNat 8 (new % 256))).write (s.cfg.spAddr + 1)
          (BitVec.ofNat 8 (new / 256))
        pc := s.pc + 2 }) ∧
    (a.toNat < 16 → s.cfg.memSize ≤ s.sp.toNat → exec (.push a) s = .next (s.memFaulted s.sp.toNat)) ∧
    (16 ≤ a.toNat → exec (.push a) s = .next { s with pc := s.pc + 2 }) ∧
    (s.mem.wf = true → a.toNat < 16 → s.sp.toNat < s.cfg.memSize → s.sp.toNat ≠ s.cfg.spAddr →
      s.sp.toNat ≠ s.cfg.spAddr + 1 →
      ∃ t, exec (.push a) s = .next t ∧ t.mem.read s.sp.toNat = s.mem.read a.toNat ∧ t.sp = s.sp - 1)

/-- POP increments SP modulo 65536, stores it, and loads the register from the cell at the updated SP (decisions D8,
D18); an incremented SP out of range takes MemFault (D13); an invalid register makes it a no-op. -/
def Obligations.PopIncrementsThenLoads : Prop :=
  EncodedAs .pop 4 1 (fun a _ => .pop a) ∧
  ∀ (s : State) (a : Word), s.cfg.Valid → s.mem.wf = true →
    let new := (s.sp.toNat + 1) % 65536
    (a.toNat < 16 → new < s.cfg.memSize →
      let moved := (s.mem.write s.cfg.spAddr (BitVec.ofNat 8 (new % 256))).write (s.cfg.spAddr + 1)
        (BitVec.ofNat 8 (new / 256))
      exec (.pop a) s = .next { s with mem := moved.write a.toNat (moved.read new), pc := s.pc + 2 }) ∧
    (a.toNat < 16 → s.cfg.memSize ≤ new → exec (.pop a) s = .next (s.memFaulted new)) ∧
    (16 ≤ a.toNat → exec (.pop a) s = .next { s with pc := s.pc + 2 })

/-- PUSH then POP on the same register restores the register and SP, wherever the pre-PUSH SP is in range and not one of
its own cells (the source's property, spec/41_data_movement.md POP, marked derived there). -/
def Obligations.PushThenPopRestores : Prop :=
  ∀ (s : State) (a : Word), s.cfg.Valid → s.mem.wf = true → a.toNat < 16 → s.sp.toNat < s.cfg.memSize →
    s.sp.toNat ≠ s.cfg.spAddr → s.sp.toNat ≠ s.cfg.spAddr + 1 →
    ∃ t u, exec (.push a) s = .next t ∧ exec (.pop a) t = .next u ∧
      u.mem.read a.toNat = s.mem.read a.toNat ∧ u.sp = s.sp ∧ u.z = s.z ∧ u.n = s.n

/-! ### Arithmetic -/

/-- R144, R146, R147: two registers; the result is taken modulo 256 and both flags are those of the result. -/
def Obligations.RegisterArithmeticWrapsAndSetsFlags : Prop :=
  EncodedAs .add 6 2 Instr.add ∧ EncodedAs .sub 8 2 Instr.sub ∧ EncodedAs .mul 9 2 Instr.mul ∧
  ∀ (s : State) (a b : Word),
    (a.toNat < 16 → b.toNat < 16 →
      exec (.add a b) s = .next (s.withResult a (s.regInt a + s.regInt b) 3) ∧
      exec (.sub a b) s = .next (s.withResult a (s.regInt a - s.regInt b) 3) ∧
      exec (.mul a b) s = .next (s.withResult a (s.regInt a * s.regInt b) 3)) ∧
    (16 ≤ a.toNat ∨ 16 ≤ b.toNat →
      exec (.add a b) s = .next { s with pc := s.pc + 3 } ∧
      exec (.sub a b) s = .next { s with pc := s.pc + 3 } ∧
      exec (.mul a b) s = .next { s with pc := s.pc + 3 })

/-- R143, R145: register and immediate, on one byte. -/
def Obligations.ImmediateArithmeticWrapsAndSetsFlags : Prop :=
  EncodedAs .adiw 5 2 Instr.adiw ∧ EncodedAs .subi 7 2 Instr.subi ∧
  ∀ (s : State) (a b : Word),
    (a.toNat < 16 →
      exec (.adiw a b) s = .next (s.withResult a (s.regInt a + immInt b) 3) ∧
      exec (.subi a b) s = .next (s.withResult a (s.regInt a - immInt b) 3)) ∧
    (16 ≤ a.toNat →
      exec (.adiw a b) s = .next { s with pc := s.pc + 3 } ∧
      exec (.subi a b) s = .next { s with pc := s.pc + 3 })

/-- R148, R149, R151: one register. -/
def Obligations.IncDecNegWrapAndSetFlags : Prop :=
  EncodedAs .inc 10 1 (fun a _ => .inc a) ∧ EncodedAs .dec 11 1 (fun a _ => .dec a) ∧
  EncodedAs .neg 13 1 (fun a _ => .neg a) ∧
  ∀ (s : State) (a : Word),
    (a.toNat < 16 →
      exec (.inc a) s = .next (s.withResult a (s.regInt a + 1) 2) ∧
      exec (.dec a) s = .next (s.withResult a (s.regInt a - 1) 2) ∧
      exec (.neg a) s = .next (s.withResult a (0 - s.regInt a) 2)) ∧
    (16 ≤ a.toNat →
      exec (.inc a) s = .next { s with pc := s.pc + 2 } ∧
      exec (.dec a) s = .next { s with pc := s.pc + 2 } ∧
      exec (.neg a) s = .next { s with pc := s.pc + 2 })

/-- R150: SWAP exchanges the two nibbles and updates no flags; applying it twice restores the value. -/
def Obligations.SwapExchangesNibblesWithoutFlags : Prop :=
  EncodedAs .swap 12 1 (fun a _ => .swap a) ∧
  ∀ (s : State) (a : Word),
    (a.toNat < 16 →
      exec (.swap a) s = .next { s with
        mem := s.mem.write a.toNat
          (BitVec.ofNat 8 ((s.mem.read a.toNat).toNat % 16 * 16 + (s.mem.read a.toNat).toNat / 16))
        pc := s.pc + 2 }) ∧
    (16 ≤ a.toNat → exec (.swap a) s = .next { s with pc := s.pc + 2 }) ∧
    (s.mem.wf = true → a.toNat < 16 →
      ∃ t u, exec (.swap a) s = .next t ∧ exec (.swap a) t = .next u ∧ u.mem = s.mem)

/-- ROR shifts right one bit, fills bit 7 from N and sets the flags from the result (spec/42_arithmetic.md, ROR). Its last
clause, that N does not change, is the sentence the spec marks as derived there: "`N` after `ROR` always equals `N` before
it". -/
def Obligations.RorFillsFromNegative : Prop :=
  EncodedAs .ror 14 1 (fun a _ => .ror a) ∧
  ∀ (s : State) (a : Word),
    (a.toNat < 16 →
      exec (.ror a) s = .next (s.withResult a ((if s.n then 128 else 0) + s.regInt a / 2) 2)) ∧
    (16 ≤ a.toNat → exec (.ror a) s = .next { s with pc := s.pc + 2 }) ∧
    (∀ t, exec (.ror a) s = .next t → t.n = s.n)

/-! ### Logic -/

/-- R161, R163, R164: two registers, bitwise. -/
def Obligations.RegisterLogicIsBitwiseAndSetsFlags : Prop :=
  EncodedAs .and 16 2 Instr.and ∧ EncodedAs .or 18 2 Instr.or ∧ EncodedAs .eor 19 2 Instr.eor ∧
  ∀ (s : State) (a b : Word),
    let x := (s.mem.read a.toNat).toNat
    let y := (s.mem.read b.toNat).toNat
    (a.toNat < 16 → b.toNat < 16 →
      exec (.and a b) s = .next (s.withResult a (x &&& y : Nat) 3) ∧
      exec (.or a b) s = .next (s.withResult a (x ||| y : Nat) 3) ∧
      exec (.eor a b) s = .next (s.withResult a (x ^^^ y : Nat) 3)) ∧
    (16 ≤ a.toNat ∨ 16 ≤ b.toNat →
      exec (.and a b) s = .next { s with pc := s.pc + 3 } ∧
      exec (.or a b) s = .next { s with pc := s.pc + 3 } ∧
      exec (.eor a b) s = .next { s with pc := s.pc + 3 })

/-- R160, R162: register and immediate, bitwise. -/
def Obligations.ImmediateLogicIsBitwiseAndSetsFlags : Prop :=
  EncodedAs .andi 15 2 Instr.andi ∧ EncodedAs .ori 17 2 Instr.ori ∧
  ∀ (s : State) (a b : Word),
    let x := (s.mem.read a.toNat).toNat
    (a.toNat < 16 →
      exec (.andi a b) s = .next (s.withResult a (x &&& (b.toNat % 256) : Nat) 3) ∧
      exec (.ori a b) s = .next (s.withResult a (x ||| (b.toNat % 256) : Nat) 3)) ∧
    (16 ≤ a.toNat →
      exec (.andi a b) s = .next { s with pc := s.pc + 3 } ∧
      exec (.ori a b) s = .next { s with pc := s.pc + 3 })

/-! ### Compare and jump -/

/-- R170, R171: flags from the wrapped difference, no write-back; Z is equality of the compared bytes. -/
def Obligations.ComparesWriteOnlyTheFlags : Prop :=
  EncodedAs .cpi 20 2 Instr.cpi ∧ EncodedAs .cp 21 2 Instr.cp ∧
  ∀ (s : State) (a b : Word),
    (a.toNat < 16 →
      exec (.cpi a b) s = .next (s.withComparison (s.regInt a - immInt b) 3) ∧
      (s.withComparison (s.regInt a - immInt b) 3).z = decide (s.regInt a = immInt b)) ∧
    (16 ≤ a.toNat → exec (.cpi a b) s = .next { s with pc := s.pc + 3 }) ∧
    (a.toNat < 16 → b.toNat < 16 →
      exec (.cp a b) s = .next (s.withComparison (s.regInt a - s.regInt b) 3) ∧
      (s.withComparison (s.regInt a - s.regInt b) 3).z = decide (s.regInt a = s.regInt b)) ∧
    (16 ≤ a.toNat ∨ 16 ≤ b.toNat → exec (.cp a b) s = .next { s with pc := s.pc + 3 })

/-- R172, R174: a taken jump resumes at target + 1, an untaken one after its operand; nothing but pc changes. -/
def Obligations.JzAndJneJumpOnZero : Prop :=
  EncodedAs .jz 22 1 (fun a _ => .jz a) ∧ EncodedAs .jne 24 1 (fun a _ => .jne a) ∧
  ∀ (s : State) (a : Word),
    (s.z = true →
      exec (.jz a) s = .next { s with pc := a.toNat + 1 } ∧ exec (.jne a) s = .next { s with pc := s.pc + 2 }) ∧
    (s.z = false →
      exec (.jz a) s = .next { s with pc := s.pc + 2 } ∧ exec (.jne a) s = .next { s with pc := a.toNat + 1 })

/-- JE behaves as JZ, with an opcode of its own (decision D2). -/
def Obligations.JeIsASynonymOfJz : Prop :=
  EncodedAs .je 23 1 (fun a _ => .je a) ∧
  ∀ (s : State) (a : Word),
    exec (.je a) s = exec (.jz a) s ∧
    exec (.je a) s = .next { s with pc := if s.z then a.toNat + 1 else s.pc + 2 }

/-- A taken jump, be it JZ or JE with Z true or JNE with Z false, with target `pc - 1` is its own successor, so it repeats
forever; one whose target + 1 is at or past the end of the store ends the run normally, with pc = target + 1
(spec/44_compare_jump.md, control transfer in general, decision D15, log entry 7). -/
def Obligations.JumpToItselfRepeatsAndJumpOutEnds : Prop :=
  ∀ (s : State) (m : Mnemonic), s.cfg.Valid → s.Running → s.pc + 1 < s.cfg.progSize →
    s.progWord s.pc = s.cfg.opc.code m →
    ((m = .jz ∨ m = .je) ∧ s.z = true ∨ m = .jne ∧ s.z = false) →
    ((s.progWord (s.pc + 1)).toNat + 1 = s.pc →
      step s = .next s ∧ ∀ k, Host.Core.run core k s = .next s) ∧
    (s.cfg.progSize ≤ (s.progWord (s.pc + 1)).toNat + 1 →
      ∃ t, step s = .next t ∧ t.EndedNormally ∧ t.pc = (s.progWord (s.pc + 1)).toNat + 1)

/-! ### Termination, ports, unknown words -/

/-- R180, R181: BREAK leaves pc at PROG_SIZE + 1 and the core halted; NOP only advances. -/
def Obligations.BreakHaltsAndNopAdvances : Prop :=
  EncodedAs .brk 25 0 (fun _ _ => .brk) ∧ EncodedAs .nop 26 0 (fun _ _ => .nop) ∧
  ∀ s : State,
    exec .brk s = .next { s with pc := s.cfg.progSize + 1 } ∧
    exec .nop s = .next { s with pc := s.pc + 1 } ∧
    (s.fault = none → ({ s with pc := s.cfg.progSize + 1 } : State).EndedNormally)

/-- OUT stores first, then emits the stored byte if the address is the console port, and ends the run if it is the exit
port; an address out of range takes MemFault with nothing stored or emitted (decision D13); an invalid register makes it
a no-op even on a port or out of range. -/
def Obligations.OutStoresThenActsOnPorts : Prop :=
  EncodedAs .out 27 2 Instr.out ∧
  ∀ (s : State) (a b : Word), s.cfg.Valid →
    (b.toNat < 16 → a.toNat < s.cfg.memSize →
      exec (.out a b) s = .next { s with
        mem := s.mem.write a.toNat (s.mem.read b.toNat)
        console := if a.toNat = s.cfg.portConsole then s.console ++ [s.mem.read b.toNat] else s.console
        pc := if a.toNat = s.cfg.portExit then s.cfg.progSize + 1 else s.pc + 3 }) ∧
    (b.toNat < 16 → s.cfg.memSize ≤ a.toNat → exec (.out a b) s = .next (s.memFaulted a.toNat)) ∧
    (16 ≤ b.toNat → exec (.out a b) s = .next { s with pc := s.pc + 3 })

/-- IN loads the stored byte of any address, ports included, and writes no flag; an address out of range takes MemFault
(decision D13); an invalid register makes it a no-op. -/
def Obligations.InLoadsAnyCell : Prop :=
  EncodedAs .inp 28 2 Instr.inp ∧
  ∀ (s : State) (a b : Word),
    (a.toNat < 16 → b.toNat < s.cfg.memSize →
      exec (.inp a b) s = .next { s with mem := s.mem.write a.toNat (s.mem.read b.toNat), pc := s.pc + 3 }) ∧
    (a.toNat < 16 → s.cfg.memSize ≤ b.toNat → exec (.inp a b) s = .next (s.memFaulted b.toNat)) ∧
    (16 ≤ a.toNat → exec (.inp a b) s = .next { s with pc := s.pc + 3 })

/-- R185: a word that is no opcode changes nothing but the optional diagnostic, consumes no operand and advances by one.
BAD_WORD (decision D3) behaves as any of them. -/
def Obligations.UnknownWordsOnlyAdvance : Prop :=
  ∀ s : State,
    (∀ w, exec (.unknown w) s = .next { s with
      diag := if s.cfg.diagLog then s.diag ++ [(s.pc, w)] else s.diag, pc := s.pc + 1 }) ∧
    exec .bad s = .next { s with
      diag := if s.cfg.diagLog then s.diag ++ [(s.pc, s.cfg.badWord)] else s.diag, pc := s.pc + 1 } ∧
    (s.Running → (∀ m, s.progWord s.pc ≠ s.cfg.opc.code m) →
      step s = .next { s with
        diag := if s.cfg.diagLog then s.diag ++ [(s.pc, s.progWord s.pc)] else s.diag, pc := s.pc + 1 })

/-- A running core whose cells from pc on are all no opcode walks to the end of the store, one step a cell, and halts
there with nothing changed but pc and the optional diagnostics (spec/45_control_io.md, BAD, corner cases). -/
def Obligations.UnloadedCellsRunOffTheEnd : Prop :=
  ∀ s : State, s.Running → (∀ k m, s.pc ≤ k → k < s.cfg.progSize → s.progWord k ≠ s.cfg.opc.code m) →
    ∃ t, Host.Core.run core (s.cfg.progSize - s.pc) s = .next t ∧ t.EndedNormally ∧ t.pc = s.cfg.progSize ∧
      { t with pc := s.pc, diag := s.diag } = s

/-! ### Invariants and runs -/

/-- Every step keeps the invariant: valid parameters, canonical memory and program store without cells out of range, the
bound on pc, DIAG empty unless logged, and a fault record that speaks of the instruction at pc. -/
def Obligations.StepKeepsTheInvariant : Prop :=
  ∀ s t : State, s.Inv → step s = .next t → t.Inv

/-- A run stops only after a normal end or a taken fault, with the name that says which, and it never meets a refusal:
from a state of the invariant, whatever the program and however long the run. -/
def Obligations.RunsStopOnlyHaltedOrFaulted : Prop :=
  ∀ (s : State) (k : Nat), s.Inv →
    match Host.Core.run core k s with
    | .next t => t.Inv
    | .fault f => ∃ j t, j < k ∧ Host.Core.run core j s = .next t ∧ t.Inv ∧
        ((f = .halted ∧ t.EndedNormally) ∨ ∃ r, f = .faulted r ∧ t.fault = some r)
    | .refused _ => False
end

