-- ==== Sys2Proof/Laws/State.lean ====
section
/-! SUPPORT. One lemma per field per update of State, so that no proof unfolds a record update; then the same for the
named operations that update one field, and for what is read through `cfg`, `mem` and `prog`. -/

namespace Sys2Proof.Machine.State

variable (s : State)

/-! ### `withMem` -/

@[simp] theorem withMem_cfg (m : Memory) : (s.withMem m).cfg = s.cfg := rfl
@[simp] theorem withMem_mem (m : Memory) : (s.withMem m).mem = m := rfl
@[simp] theorem withMem_prog (m : Memory) : (s.withMem m).prog = s.prog := rfl
@[simp] theorem withMem_pc (m : Memory) : (s.withMem m).pc = s.pc := rfl
@[simp] theorem withMem_z (m : Memory) : (s.withMem m).z = s.z := rfl
@[simp] theorem withMem_n (m : Memory) : (s.withMem m).n = s.n := rfl
@[simp] theorem withMem_console (m : Memory) : (s.withMem m).console = s.console := rfl
@[simp] theorem withMem_diag (m : Memory) : (s.withMem m).diag = s.diag := rfl
@[simp] theorem withMem_fault (m : Memory) : (s.withMem m).fault = s.fault := rfl

/-! ### `withProg` -/

@[simp] theorem withProg_cfg (p : ProgStore) : (s.withProg p).cfg = s.cfg := rfl
@[simp] theorem withProg_mem (p : ProgStore) : (s.withProg p).mem = s.mem := rfl
@[simp] theorem withProg_prog (p : ProgStore) : (s.withProg p).prog = p := rfl
@[simp] theorem withProg_pc (p : ProgStore) : (s.withProg p).pc = s.pc := rfl
@[simp] theorem withProg_z (p : ProgStore) : (s.withProg p).z = s.z := rfl
@[simp] theorem withProg_n (p : ProgStore) : (s.withProg p).n = s.n := rfl
@[simp] theorem withProg_console (p : ProgStore) : (s.withProg p).console = s.console := rfl
@[simp] theorem withProg_diag (p : ProgStore) : (s.withProg p).diag = s.diag := rfl
@[simp] theorem withProg_fault (p : ProgStore) : (s.withProg p).fault = s.fault := rfl

/-! ### `withPc` -/

@[simp] theorem withPc_cfg (p : Nat) : (s.withPc p).cfg = s.cfg := rfl
@[simp] theorem withPc_mem (p : Nat) : (s.withPc p).mem = s.mem := rfl
@[simp] theorem withPc_prog (p : Nat) : (s.withPc p).prog = s.prog := rfl
@[simp] theorem withPc_pc (p : Nat) : (s.withPc p).pc = p := rfl
@[simp] theorem withPc_z (p : Nat) : (s.withPc p).z = s.z := rfl
@[simp] theorem withPc_n (p : Nat) : (s.withPc p).n = s.n := rfl
@[simp] theorem withPc_console (p : Nat) : (s.withPc p).console = s.console := rfl
@[simp] theorem withPc_diag (p : Nat) : (s.withPc p).diag = s.diag := rfl
@[simp] theorem withPc_fault (p : Nat) : (s.withPc p).fault = s.fault := rfl

/-! ### `withFlags` -/

@[simp] theorem withFlags_cfg (z n : Bool) : (s.withFlags z n).cfg = s.cfg := rfl
@[simp] theorem withFlags_mem (z n : Bool) : (s.withFlags z n).mem = s.mem := rfl
@[simp] theorem withFlags_prog (z n : Bool) : (s.withFlags z n).prog = s.prog := rfl
@[simp] theorem withFlags_pc (z n : Bool) : (s.withFlags z n).pc = s.pc := rfl
@[simp] theorem withFlags_z (z n : Bool) : (s.withFlags z n).z = z := rfl
@[simp] theorem withFlags_n (z n : Bool) : (s.withFlags z n).n = n := rfl
@[simp] theorem withFlags_console (z n : Bool) : (s.withFlags z n).console = s.console := rfl
@[simp] theorem withFlags_diag (z n : Bool) : (s.withFlags z n).diag = s.diag := rfl
@[simp] theorem withFlags_fault (z n : Bool) : (s.withFlags z n).fault = s.fault := rfl

/-! ### `withConsole` -/

@[simp] theorem withConsole_cfg (c : List Byte) : (s.withConsole c).cfg = s.cfg := rfl
@[simp] theorem withConsole_mem (c : List Byte) : (s.withConsole c).mem = s.mem := rfl
@[simp] theorem withConsole_prog (c : List Byte) : (s.withConsole c).prog = s.prog := rfl
@[simp] theorem withConsole_pc (c : List Byte) : (s.withConsole c).pc = s.pc := rfl
@[simp] theorem withConsole_z (c : List Byte) : (s.withConsole c).z = s.z := rfl
@[simp] theorem withConsole_n (c : List Byte) : (s.withConsole c).n = s.n := rfl
@[simp] theorem withConsole_console (c : List Byte) : (s.withConsole c).console = c := rfl
@[simp] theorem withConsole_diag (c : List Byte) : (s.withConsole c).diag = s.diag := rfl
@[simp] theorem withConsole_fault (c : List Byte) : (s.withConsole c).fault = s.fault := rfl

/-! ### `withDiag` -/

@[simp] theorem withDiag_cfg (d : List (Nat × Word)) : (s.withDiag d).cfg = s.cfg := rfl
@[simp] theorem withDiag_mem (d : List (Nat × Word)) : (s.withDiag d).mem = s.mem := rfl
@[simp] theorem withDiag_prog (d : List (Nat × Word)) : (s.withDiag d).prog = s.prog := rfl
@[simp] theorem withDiag_pc (d : List (Nat × Word)) : (s.withDiag d).pc = s.pc := rfl
@[simp] theorem withDiag_z (d : List (Nat × Word)) : (s.withDiag d).z = s.z := rfl
@[simp] theorem withDiag_n (d : List (Nat × Word)) : (s.withDiag d).n = s.n := rfl
@[simp] theorem withDiag_console (d : List (Nat × Word)) : (s.withDiag d).console = s.console := rfl
@[simp] theorem withDiag_diag (d : List (Nat × Word)) : (s.withDiag d).diag = d := rfl
@[simp] theorem withDiag_fault (d : List (Nat × Word)) : (s.withDiag d).fault = s.fault := rfl

/-! ### `withFault` -/

@[simp] theorem withFault_cfg (f : Option FaultRecord) : (s.withFault f).cfg = s.cfg := rfl
@[simp] theorem withFault_mem (f : Option FaultRecord) : (s.withFault f).mem = s.mem := rfl
@[simp] theorem withFault_prog (f : Option FaultRecord) : (s.withFault f).prog = s.prog := rfl
@[simp] theorem withFault_pc (f : Option FaultRecord) : (s.withFault f).pc = s.pc := rfl
@[simp] theorem withFault_z (f : Option FaultRecord) : (s.withFault f).z = s.z := rfl
@[simp] theorem withFault_n (f : Option FaultRecord) : (s.withFault f).n = s.n := rfl
@[simp] theorem withFault_console (f : Option FaultRecord) : (s.withFault f).console = s.console := rfl
@[simp] theorem withFault_diag (f : Option FaultRecord) : (s.withFault f).diag = s.diag := rfl
@[simp] theorem withFault_fault (f : Option FaultRecord) : (s.withFault f).fault = f := rfl

/-! ### `setReg`, `setZN`, `writeResult`, `emit`, `halt`, `takeFault` -/

@[simp] theorem setReg_cfg (i : Nat) (v : Byte) : (s.setReg i v).cfg = s.cfg := rfl
@[simp] theorem setReg_mem (i : Nat) (v : Byte) : (s.setReg i v).mem = s.mem.write i v := rfl
@[simp] theorem setReg_prog (i : Nat) (v : Byte) : (s.setReg i v).prog = s.prog := rfl
@[simp] theorem setReg_pc (i : Nat) (v : Byte) : (s.setReg i v).pc = s.pc := rfl
@[simp] theorem setReg_z (i : Nat) (v : Byte) : (s.setReg i v).z = s.z := rfl
@[simp] theorem setReg_n (i : Nat) (v : Byte) : (s.setReg i v).n = s.n := rfl
@[simp] theorem setReg_console (i : Nat) (v : Byte) : (s.setReg i v).console = s.console := rfl
@[simp] theorem setReg_diag (i : Nat) (v : Byte) : (s.setReg i v).diag = s.diag := rfl
@[simp] theorem setReg_fault (i : Nat) (v : Byte) : (s.setReg i v).fault = s.fault := rfl
@[simp] theorem setZN_cfg (r : Byte) : (s.setZN r).cfg = s.cfg := rfl
@[simp] theorem setZN_mem (r : Byte) : (s.setZN r).mem = s.mem := rfl
@[simp] theorem setZN_prog (r : Byte) : (s.setZN r).prog = s.prog := rfl
@[simp] theorem setZN_pc (r : Byte) : (s.setZN r).pc = s.pc := rfl
@[simp] theorem setZN_z (r : Byte) : (s.setZN r).z = zeroOf r := rfl
@[simp] theorem setZN_n (r : Byte) : (s.setZN r).n = negativeOf r := rfl
@[simp] theorem setZN_console (r : Byte) : (s.setZN r).console = s.console := rfl
@[simp] theorem setZN_diag (r : Byte) : (s.setZN r).diag = s.diag := rfl
@[simp] theorem setZN_fault (r : Byte) : (s.setZN r).fault = s.fault := rfl
@[simp] theorem writeResult_cfg (a : Word) (r : Byte) : (s.writeResult a r).cfg = s.cfg := rfl
@[simp] theorem writeResult_mem (a : Word) (r : Byte) : (s.writeResult a r).mem = s.mem.write (regNo a) r := rfl
@[simp] theorem writeResult_prog (a : Word) (r : Byte) : (s.writeResult a r).prog = s.prog := rfl
@[simp] theorem writeResult_pc (a : Word) (r : Byte) : (s.writeResult a r).pc = s.pc := rfl
@[simp] theorem writeResult_z (a : Word) (r : Byte) : (s.writeResult a r).z = zeroOf r := rfl
@[simp] theorem writeResult_n (a : Word) (r : Byte) : (s.writeResult a r).n = negativeOf r := rfl
@[simp] theorem writeResult_console (a : Word) (r : Byte) : (s.writeResult a r).console = s.console := rfl
@[simp] theorem writeResult_diag (a : Word) (r : Byte) : (s.writeResult a r).diag = s.diag := rfl
@[simp] theorem writeResult_fault (a : Word) (r : Byte) : (s.writeResult a r).fault = s.fault := rfl
@[simp] theorem emit_cfg (b : Byte) : (s.emit b).cfg = s.cfg := rfl
@[simp] theorem emit_mem (b : Byte) : (s.emit b).mem = s.mem := rfl
@[simp] theorem emit_prog (b : Byte) : (s.emit b).prog = s.prog := rfl
@[simp] theorem emit_pc (b : Byte) : (s.emit b).pc = s.pc := rfl
@[simp] theorem emit_z (b : Byte) : (s.emit b).z = s.z := rfl
@[simp] theorem emit_n (b : Byte) : (s.emit b).n = s.n := rfl
@[simp] theorem emit_console (b : Byte) : (s.emit b).console = s.console ++ [b] := rfl
@[simp] theorem emit_diag (b : Byte) : (s.emit b).diag = s.diag := rfl
@[simp] theorem emit_fault (b : Byte) : (s.emit b).fault = s.fault := rfl
@[simp] theorem halt_cfg : (s.halt).cfg = s.cfg := rfl
@[simp] theorem halt_mem : (s.halt).mem = s.mem := rfl
@[simp] theorem halt_prog : (s.halt).prog = s.prog := rfl
@[simp] theorem halt_pc : (s.halt).pc = s.cfg.progSize := rfl
@[simp] theorem halt_z : (s.halt).z = s.z := rfl
@[simp] theorem halt_n : (s.halt).n = s.n := rfl
@[simp] theorem halt_console : (s.halt).console = s.console := rfl
@[simp] theorem halt_diag : (s.halt).diag = s.diag := rfl
@[simp] theorem halt_fault : (s.halt).fault = s.fault := rfl
@[simp] theorem takeFault_cfg (r : Raise) : (s.takeFault r).cfg = s.cfg := rfl
@[simp] theorem takeFault_mem (r : Raise) : (s.takeFault r).mem = s.mem := rfl
@[simp] theorem takeFault_prog (r : Raise) : (s.takeFault r).prog = s.prog := rfl
@[simp] theorem takeFault_pc (r : Raise) : (s.takeFault r).pc = s.pc := rfl
@[simp] theorem takeFault_z (r : Raise) : (s.takeFault r).z = s.z := rfl
@[simp] theorem takeFault_n (r : Raise) : (s.takeFault r).n = s.n := rfl
@[simp] theorem takeFault_console (r : Raise) : (s.takeFault r).console = s.console := rfl
@[simp] theorem takeFault_diag (r : Raise) : (s.takeFault r).diag = s.diag := rfl
@[simp] theorem takeFault_fault (r : Raise) : (s.takeFault r).fault = some ⟨r.code, s.pc, s.progWord s.pc, r.info⟩ := rfl

/-! ### `logDiag`: only `diag` can change -/

@[simp] theorem logDiag_cfg (i : Nat) (w : Word) : (s.logDiag i w).cfg = s.cfg := by
  unfold logDiag; split <;> rfl
@[simp] theorem logDiag_mem (i : Nat) (w : Word) : (s.logDiag i w).mem = s.mem := by
  unfold logDiag; split <;> rfl
@[simp] theorem logDiag_prog (i : Nat) (w : Word) : (s.logDiag i w).prog = s.prog := by
  unfold logDiag; split <;> rfl
@[simp] theorem logDiag_pc (i : Nat) (w : Word) : (s.logDiag i w).pc = s.pc := by
  unfold logDiag; split <;> rfl
@[simp] theorem logDiag_z (i : Nat) (w : Word) : (s.logDiag i w).z = s.z := by
  unfold logDiag; split <;> rfl
@[simp] theorem logDiag_n (i : Nat) (w : Word) : (s.logDiag i w).n = s.n := by
  unfold logDiag; split <;> rfl
@[simp] theorem logDiag_console (i : Nat) (w : Word) : (s.logDiag i w).console = s.console := by
  unfold logDiag; split <;> rfl
@[simp] theorem logDiag_diag (i : Nat) (w : Word) :
    (s.logDiag i w).diag = s.diag ++ (if s.cfg.diagLog then [(i, w)] else []) := by
  unfold logDiag; split <;> simp [withDiag]
@[simp] theorem logDiag_fault (i : Nat) (w : Word) : (s.logDiag i w).fault = s.fault := by
  unfold logDiag; split <;> rfl

/-! ### `portEffect`: only `console` and `pc` can change -/

@[simp] theorem portEffect_cfg (a : Nat) (v : Byte) : (s.portEffect a v).cfg = s.cfg := by
  unfold portEffect; split <;> split <;> rfl
@[simp] theorem portEffect_mem (a : Nat) (v : Byte) : (s.portEffect a v).mem = s.mem := by
  unfold portEffect; split <;> split <;> rfl
@[simp] theorem portEffect_prog (a : Nat) (v : Byte) : (s.portEffect a v).prog = s.prog := by
  unfold portEffect; split <;> split <;> rfl
@[simp] theorem portEffect_pc (a : Nat) (v : Byte) :
    (s.portEffect a v).pc = if a = s.cfg.portExit then s.cfg.progSize else s.pc := by
  unfold portEffect; split <;> split <;> simp_all [emit, halt]
@[simp] theorem portEffect_z (a : Nat) (v : Byte) : (s.portEffect a v).z = s.z := by
  unfold portEffect; split <;> split <;> rfl
@[simp] theorem portEffect_n (a : Nat) (v : Byte) : (s.portEffect a v).n = s.n := by
  unfold portEffect; split <;> split <;> rfl
@[simp] theorem portEffect_console (a : Nat) (v : Byte) :
    (s.portEffect a v).console = s.console ++ (if a = s.cfg.portConsole then [v] else []) := by
  unfold portEffect; split <;> split <;> simp [emit, halt]
@[simp] theorem portEffect_diag (a : Nat) (v : Byte) : (s.portEffect a v).diag = s.diag := by
  unfold portEffect; split <;> split <;> rfl
@[simp] theorem portEffect_fault (a : Nat) (v : Byte) : (s.portEffect a v).fault = s.fault := by
  unfold portEffect; split <;> split <;> rfl

/-! ### Readings: they depend on `cfg`, `mem`, `prog` alone -/

@[simp] theorem withMem_progWord (m : Memory) (i : Nat) : (s.withMem m).progWord i = s.progWord i := rfl
@[simp] theorem withProg_reg (p : ProgStore) (i : Nat) : (s.withProg p).reg i = s.reg i := rfl
@[simp] theorem withProg_wordAt (p : ProgStore) (i : Nat) : (s.withProg p).wordAt i = s.wordAt i := rfl
@[simp] theorem withProg_sp (p : ProgStore) : (s.withProg p).sp = s.sp := rfl
@[simp] theorem withPc_reg (p : Nat) (i : Nat) : (s.withPc p).reg i = s.reg i := rfl
@[simp] theorem withPc_wordAt (p : Nat) (i : Nat) : (s.withPc p).wordAt i = s.wordAt i := rfl
@[simp] theorem withPc_sp (p : Nat) : (s.withPc p).sp = s.sp := rfl
@[simp] theorem withPc_progWord (p : Nat) (i : Nat) : (s.withPc p).progWord i = s.progWord i := rfl
@[simp] theorem withFlags_reg (z n : Bool) (i : Nat) : (s.withFlags z n).reg i = s.reg i := rfl
@[simp] theorem withFlags_wordAt (z n : Bool) (i : Nat) : (s.withFlags z n).wordAt i = s.wordAt i := rfl
@[simp] theorem withFlags_sp (z n : Bool) : (s.withFlags z n).sp = s.sp := rfl
@[simp] theorem withFlags_progWord (z n : Bool) (i : Nat) : (s.withFlags z n).progWord i = s.progWord i := rfl
@[simp] theorem withConsole_reg (c : List Byte) (i : Nat) : (s.withConsole c).reg i = s.reg i := rfl
@[simp] theorem withConsole_wordAt (c : List Byte) (i : Nat) : (s.withConsole c).wordAt i = s.wordAt i := rfl
@[simp] theorem withConsole_sp (c : List Byte) : (s.withConsole c).sp = s.sp := rfl
@[simp] theorem withConsole_progWord (c : List Byte) (i : Nat) : (s.withConsole c).progWord i = s.progWord i := rfl
@[simp] theorem withDiag_reg (d : List (Nat × Word)) (i : Nat) : (s.withDiag d).reg i = s.reg i := rfl
@[simp] theorem withDiag_wordAt (d : List (Nat × Word)) (i : Nat) : (s.withDiag d).wordAt i = s.wordAt i := rfl
@[simp] theorem withDiag_sp (d : List (Nat × Word)) : (s.withDiag d).sp = s.sp := rfl
@[simp] theorem withDiag_progWord (d : List (Nat × Word)) (i : Nat) : (s.withDiag d).progWord i = s.progWord i := rfl
@[simp] theorem withFault_reg (f : Option FaultRecord) (i : Nat) : (s.withFault f).reg i = s.reg i := rfl
@[simp] theorem withFault_wordAt (f : Option FaultRecord) (i : Nat) : (s.withFault f).wordAt i = s.wordAt i := rfl
@[simp] theorem withFault_sp (f : Option FaultRecord) : (s.withFault f).sp = s.sp := rfl
@[simp] theorem withFault_progWord (f : Option FaultRecord) (i : Nat) : (s.withFault f).progWord i = s.progWord i := rfl

/-- Two updates of the same field: the later one stays. -/
@[simp] theorem withPc_withPc (p q : Nat) : (s.withPc p).withPc q = s.withPc q := rfl
@[simp] theorem withMem_withMem (m m' : Memory) : (s.withMem m).withMem m' = s.withMem m' := rfl

/-- Writing a field's own value changes nothing. -/
@[simp] theorem withPc_self : s.withPc s.pc = s := rfl
@[simp] theorem withMem_self : s.withMem s.mem = s := rfl

end Sys2Proof.Machine.State
end

