-- ==== Sys2Proof/Laws/Memory.lean ====
section
/-! SUPPORT. Sparse stores: what a store reads as after a write, the canonical form and that every write keeps it, and
that two canonical stores that read alike are equal; then the same for the register/memory space. -/

namespace Sys2Proof.Machine

namespace Cells

variable {α : Type} [DecidableEq α] {d : α}

theorem get_set_ne (t : List (Nat × α)) {a b : Nat} (v : α) (h : b ≠ a) : get d (set d t a v) b = get d t b := by
  induction t with
  | nil => unfold set; split <;> simp [get, Ne.symm h]
  | cons c t ih =>
    obtain ⟨k, w⟩ := c
    unfold set
    split
    · split
      · rfl
      · simp [get, Ne.symm h]
    · split
      · subst_vars
        split <;> simp [get, Ne.symm h]
      · simp only [get, ih]

theorem wf_cons {k : Nat} {w : α} {t : List (Nat × α)} :
    wf d ((k, w) :: t) = true ↔ w ≠ d ∧ (∀ c ∈ t, k < c.1) ∧ wf d t = true := by
  simp [wf, and_assoc]

omit [DecidableEq α] in
/-- A key below every listed key reads as the default. -/
theorem get_of_lt {t : List (Nat × α)} {a : Nat} (h : ∀ c ∈ t, a < c.1) : get d t a = d := by
  induction t with
  | nil => rfl
  | cons c t ih =>
    have hc := h c List.mem_cons_self
    rw [get, if_neg (by omega)]
    exact ih fun x hx => h x (List.mem_cons_of_mem _ hx)

theorem get_set_self {t : List (Nat × α)} (ht : wf d t = true) (a : Nat) (v : α) : get d (set d t a v) a = v := by
  induction t with
  | nil => unfold set; split <;> simp_all [get]
  | cons c t ih =>
    obtain ⟨k, w⟩ := c
    obtain ⟨-, hk, ht'⟩ := wf_cons.1 ht
    unfold set
    split
    · rename_i hlt
      split
      · rename_i hv
        rw [get_of_lt, hv]
        rintro x hx
        obtain rfl | hx := List.mem_cons.1 hx
        · exact hlt
        · exact lt_trans hlt (hk x hx)
      · simp [get]
    · split
      · rename_i heq
        subst heq
        split
        · rename_i hv
          rw [get_of_lt hk, hv]
        · simp [get]
      · rename_i hne
        rw [get, if_neg (Ne.symm hne)]
        exact ih ht'

/-- A property of keys that the written key and every listed key have holds of every key after the write. -/
theorem set_keys {p : Nat → Prop} {t : List (Nat × α)} (h : ∀ c ∈ t, p c.1) {a : Nat} (ha : p a) (v : α) :
    ∀ c ∈ set d t a v, p c.1 := by
  induction t with
  | nil => unfold set; split <;> simp [ha]
  | cons x t ih =>
    have hx := h x List.mem_cons_self
    have ht : ∀ c ∈ t, p c.1 := fun c hc => h c (List.mem_cons_of_mem _ hc)
    unfold set
    split
    · split
      · exact h
      · rintro c hc
        obtain rfl | hc := List.mem_cons.1 hc
        · exact ha
        · exact h c hc
    · split
      · split
        · exact ht
        · rintro c hc
          obtain rfl | hc := List.mem_cons.1 hc
          · exact ha
          · exact ht c hc
      · rintro c hc
        obtain rfl | hc := List.mem_cons.1 hc
        · exact hx
        · exact ih ht c hc

/-- Every write keeps the canonical form. -/
theorem set_wf {t : List (Nat × α)} (ht : wf d t = true) (a : Nat) (v : α) : wf d (set d t a v) = true := by
  induction t with
  | nil => unfold set; split <;> simp_all [wf]
  | cons c t ih =>
    obtain ⟨k, w⟩ := c
    obtain ⟨hw, hk, ht'⟩ := wf_cons.1 ht
    unfold set
    split
    · rename_i hlt
      split
      · exact ht
      · rename_i hv
        refine wf_cons.2 ⟨hv, ?_, ht⟩
        rintro x hx
        obtain rfl | hx := List.mem_cons.1 hx
        · exact hlt
        · exact lt_trans hlt (hk x hx)
    · split
      · rename_i heq
        subst heq
        split
        · exact ht'
        · rename_i hv
          exact wf_cons.2 ⟨hv, hk, ht'⟩
      · exact wf_cons.2 ⟨hw, set_keys hk (by omega) v, ih ht'⟩

omit [DecidableEq α] in
theorem below_iff {n : Nat} {t : List (Nat × α)} : below n t = true ↔ ∀ c ∈ t, c.1 < n := by
  simp [below]

theorem set_below {n : Nat} {t : List (Nat × α)} (ht : below n t = true) {a : Nat} (ha : a < n) (v : α) :
    below n (set d t a v) = true :=
  below_iff.2 (set_keys (p := fun k => k < n) (below_iff.1 ht) ha v)

/-- Two canonical stores that read alike at every key are equal. -/
theorem ext_of_get {t u : List (Nat × α)} (ht : wf d t = true) (hu : wf d u = true)
    (h : ∀ a, get d t a = get d u a) : t = u := by
  induction t generalizing u with
  | nil =>
    cases u with
    | nil => rfl
    | cons c u =>
      obtain ⟨k, w⟩ := c
      have := h k
      simp only [get, if_true] at this
      exact absurd this.symm (wf_cons.1 hu).1
  | cons c t ih =>
    obtain ⟨k, w⟩ := c
    obtain ⟨hw, hk, ht'⟩ := wf_cons.1 ht
    cases u with
    | nil =>
      have := h k
      simp only [get, if_true] at this
      exact absurd this hw
    | cons e u =>
      obtain ⟨k', w'⟩ := e
      obtain ⟨hw', hk', hu'⟩ := wf_cons.1 hu
      have hkk : k = k' := by
        rcases lt_trichotomy k k' with hlt | heq | hlt
        · have := h k
          rw [get, if_pos rfl, get_of_lt] at this
          · exact absurd this hw
          · rintro x hx
            obtain rfl | hx := List.mem_cons.1 hx
            · exact hlt
            · exact lt_trans hlt (hk' x hx)
        · exact heq
        · have := h k'
          rw [get_of_lt, get, if_pos rfl] at this
          · exact absurd this.symm hw'
          · rintro x hx
            obtain rfl | hx := List.mem_cons.1 hx
            · exact hlt
            · exact lt_trans hlt (hk x hx)
      subst hkk
      have hww : w = w' := by simpa [get] using h k
      subst hww
      congr 1
      refine ih ht' hu' fun a => ?_
      by_cases ha : k = a
      · subst ha
        rw [get_of_lt hk, get_of_lt hk']
      · simpa [get, ha] using h a

end Cells

namespace Memory

variable {m : Memory}

@[simp] theorem read_nil (a : Nat) : Memory.read [] a = 0 := rfl

theorem read_write_self (hm : m.wf = true) (a : Nat) (v : Byte) : (m.write a v).read a = v :=
  Cells.get_set_self hm a v

theorem read_write_ne {a b : Nat} (v : Byte) (h : b ≠ a) : (m.write a v).read b = m.read b :=
  Cells.get_set_ne m v h

theorem read_write (hm : m.wf = true) (a b : Nat) (v : Byte) :
    (m.write a v).read b = if b = a then v else m.read b := by
  split
  · subst_vars; exact read_write_self hm _ v
  · exact read_write_ne v ‹_›

theorem write_wf (hm : m.wf = true) (a : Nat) (v : Byte) : (m.write a v).wf = true :=
  Cells.set_wf hm a v

theorem write_below {n : Nat} (hm : Cells.below n m = true) {a : Nat} (ha : a < n) (v : Byte) :
    Cells.below n (m.write a v) = true :=
  Cells.set_below hm ha v

/-- Writing the value a cell holds changes nothing. -/
theorem write_read_self (hm : m.wf = true) (a : Nat) : m.write a (m.read a) = m := by
  refine Cells.ext_of_get (write_wf hm a _) hm fun b => ?_
  refine (read_write hm a b _).trans ?_
  split
  · subst_vars; rfl
  · rfl

end Memory

end Sys2Proof.Machine
end

