-- ==== Sys2Proof/Laws/Ops.lean ====
section
/-! SUPPORT. One lemma for each shared operation that says what it can do: the memory primitives, the frame of an
instruction, and the common ALU and jump shapes. -/

namespace Sys2Proof.Machine.State

variable (s : State)

/-! ### Memory primitives -/

variable {s}

theorem readByte_ok {a : Nat} (h : a < s.cfg.memSize) : s.readByte a = .ok (s.mem.read a) := if_pos h

theorem readByte_error {a : Nat} (h : s.cfg.memSize ≤ a) : s.readByte a = .error (.memFault a) :=
  if_neg (by omega)

theorem writeByte_ok {a : Nat} (h : a < s.cfg.memSize) (v : Byte) :
    s.writeByte a v = .ok (s.withMem (s.mem.write a v)) := if_pos h

theorem writeByte_error {a : Nat} (h : s.cfg.memSize ≤ a) (v : Byte) : s.writeByte a v = .error (.memFault a) :=
  if_neg (by omega)

theorem readWord_ok {a : Nat} (h : a + 1 < s.cfg.memSize) : s.readWord a = .ok (s.wordAt a) := by
  rw [readWord, if_pos (by omega), if_pos h]

theorem readWord_error_high {a : Nat} (h : a + 1 = s.cfg.memSize) : s.readWord a = .error (.memFault (a + 1)) := by
  rw [readWord, if_pos (by omega), if_neg (by omega)]

theorem readWord_error_low {a : Nat} (h : s.cfg.memSize ≤ a) : s.readWord a = .error (.memFault a) := by
  rw [readWord, if_neg (by omega)]

theorem writeWord_ok {a : Nat} (h : a + 1 < s.cfg.memSize) (v : Word) :
    s.writeWord a v =
      .ok (s.withMem ((s.mem.write a (v.setWidth 8)).write (a + 1) ((v >>> 8).setWidth 8))) := by
  rw [writeWord, if_pos (by omega), if_pos h]

theorem writeWord_error_high {a : Nat} (h : a + 1 = s.cfg.memSize) (v : Word) :
    s.writeWord a v = .error (.memFault (a + 1)) := by
  rw [writeWord, if_pos (by omega), if_neg (by omega)]

theorem writeWord_error_low {a : Nat} (h : s.cfg.memSize ≤ a) (v : Word) : s.writeWord a v = .error (.memFault a) := by
  rw [writeWord, if_neg (by omega)]

/-- The two bytes of a word read back (R53). -/
theorem wordAt_toNat (a : Nat) : (s.wordAt a).toNat = (s.mem.read a).toNat + 256 * (s.mem.read (a + 1)).toNat := by
  have := (s.mem.read a).isLt
  simp only [wordAt, BitVec.toNat_append]
  rw [Nat.shiftLeft_eq, Nat.mul_comm, ← Nat.two_pow_add_eq_or_of_lt this]
  omega

theorem wordAt_eq_ofNat (a : Nat) :
    s.wordAt a = BitVec.ofNat 16 ((s.mem.read a).toNat + 256 * (s.mem.read (a + 1)).toNat) := by
  apply BitVec.eq_of_toNat_eq
  have := (s.wordAt a).isLt
  rw [BitVec.toNat_ofNat, ← wordAt_toNat, Nat.mod_eq_of_lt this]

/-- The bytes of a word written as numbers (R53). -/
theorem low_toNat (v : Word) : (v.setWidth 8 : Byte).toNat = v.toNat % 256 := by
  simp

theorem high_toNat (v : Word) : ((v >>> 8).setWidth 8 : Byte).toNat = v.toNat / 256 := by
  have := v.isLt
  simp [Nat.shiftRight_eq_div_pow]
  omega

/-- A word reads back as written, low byte first (R55). -/
theorem wordAt_write {a : Nat} (hm : s.mem.wf = true) (v : Word) :
    (s.withMem ((s.mem.write a (v.setWidth 8)).write (a + 1) ((v >>> 8).setWidth 8))).wordAt a = v := by
  have h1 := Memory.write_wf hm a (v.setWidth 8 : Byte)
  apply BitVec.eq_of_toNat_eq
  rw [wordAt_toNat]
  simp only [withMem_mem]
  rw [Memory.read_write_self h1, Memory.read_write_ne _ (by omega), Memory.read_write_self hm, low_toNat, high_toNat]
  omega

/-- Every primitive completes in range, or raises MemFault at an address out of range. -/
theorem readByte_cases (s : State) (x : Nat) :
    (x < s.cfg.memSize ∧ s.readByte x = .ok (s.mem.read x)) ∨
    ∃ y, s.cfg.memSize ≤ y ∧ s.readByte x = .error (.memFault y) := by
  by_cases h : x < s.cfg.memSize
  · exact .inl ⟨h, readByte_ok h⟩
  · exact .inr ⟨x, by omega, readByte_error (by omega)⟩

theorem writeByte_cases (s : State) (x : Nat) (v : Byte) :
    (x < s.cfg.memSize ∧ s.writeByte x v = .ok (s.withMem (s.mem.write x v))) ∨
    ∃ y, s.cfg.memSize ≤ y ∧ s.writeByte x v = .error (.memFault y) := by
  by_cases h : x < s.cfg.memSize
  · exact .inl ⟨h, writeByte_ok h v⟩
  · exact .inr ⟨x, by omega, writeByte_error (by omega) v⟩

theorem readWord_cases (s : State) (x : Nat) :
    (x + 1 < s.cfg.memSize ∧ s.readWord x = .ok (s.wordAt x)) ∨
    ∃ y, s.cfg.memSize ≤ y ∧ s.readWord x = .error (.memFault y) := by
  by_cases h : x + 1 < s.cfg.memSize
  · exact .inl ⟨h, readWord_ok h⟩
  · by_cases h1 : x + 1 = s.cfg.memSize
    · exact .inr ⟨x + 1, by omega, readWord_error_high h1⟩
    · exact .inr ⟨x, by omega, readWord_error_low (by omega)⟩

theorem writeWord_cases (s : State) (x : Nat) (v : Word) :
    (x + 1 < s.cfg.memSize ∧ s.writeWord x v =
      .ok (s.withMem ((s.mem.write x (v.setWidth 8)).write (x + 1) ((v >>> 8).setWidth 8)))) ∨
    ∃ y, s.cfg.memSize ≤ y ∧ s.writeWord x v = .error (.memFault y) := by
  by_cases h : x + 1 < s.cfg.memSize
  · exact .inl ⟨h, writeWord_ok h v⟩
  · by_cases h1 : x + 1 = s.cfg.memSize
    · exact .inr ⟨x + 1, by omega, writeWord_error_high h1 v⟩
    · exact .inr ⟨x, by omega, writeWord_error_low (by omega) v⟩
variable (s)

/-! ### The frame of an instruction -/

variable {s} in
theorem execute_ok {k : Nat} {body : State → Except Raise State} {t : State}
    (h : body (s.withPc (s.pc + k)) = .ok t) : s.execute k body = .next (t.withPc (t.pc + 1)) := by
  rw [execute, h]

variable {s} in
theorem execute_error {k : Nat} {body : State → Except Raise State} {r : Raise}
    (h : body (s.withPc (s.pc + k)) = .error r) : s.execute k body = .next (s.takeFault r) := by
  rw [execute, h]

variable {s} in
/-- What an instruction can do: its body completes and the loop's increment follows, or the fault is taken. -/
theorem execute_cases {k : Nat} {body : State → Except Raise State} {t : State} (h : s.execute k body = .next t) :
    (∃ u, body (s.withPc (s.pc + k)) = .ok u ∧ t = u.withPc (u.pc + 1)) ∨
    (∃ r, body (s.withPc (s.pc + k)) = .error r ∧ t = s.takeFault r) := by
  unfold execute at h
  split at h
  · exact .inl ⟨_, ‹_›, by simpa using h.symm⟩
  · exact .inr ⟨_, ‹_›, by simpa using h.symm⟩

/-- Every instruction answers a next state. -/
theorem execute_answers (k : Nat) (body : State → Except Raise State) : ∃ t, s.execute k body = .next t := by
  unfold execute
  split <;> exact ⟨_, rfl⟩

end Sys2Proof.Machine.State

namespace Sys2Proof.Machine

/-! ### Operands and flags -/

theorem validReg_iff (w : Word) : validReg w = true ↔ w.toNat < 16 := decide_eq_true_iff

theorem validReg_of_lt {w : Word} (h : w.toNat < 16) : validReg w = true := (validReg_iff w).2 h

theorem validReg_of_ge {w : Word} (h : 16 ≤ w.toNat) : validReg w = false := by
  cases hv : validReg w
  · rfl
  · exact absurd ((validReg_iff w).1 hv) (by omega)

theorem imm8_toNat (w : Word) : (imm8 w).toNat = w.toNat % 256 := by
  simp [imm8]

theorem zeroOf_eq (r : Byte) : zeroOf r = decide (r.toNat = 0) := by
  simp only [zeroOf, Bool.beq_eq_decide_eq, decide_eq_decide]
  exact ⟨fun h => by simp [h], fun h => BitVec.eq_of_toNat_eq (by simpa using h)⟩

theorem negativeOf_eq (r : Byte) : negativeOf r = decide (128 ≤ r.toNat) := by
  have h := r.isLt
  simp only [negativeOf, BitVec.getLsbD, Nat.testBit_eq_decide_div_mod_eq, decide_eq_decide]
  omega

/-! ### The common shapes -/

namespace State

variable {s : State}

theorem aluR_valid {a : Word} (ha : a.toNat < 16) (f : Bool → Byte → Byte) :
    s.aluR a f = .next ((s.writeResult a (f s.n (s.reg (regNo a)))).withPc (s.pc + 2)) := by
  simp only [aluR, execute, aluRBody, validReg_of_lt ha, if_true]; rfl

theorem aluR_invalid {a : Word} (ha : 16 ≤ a.toNat) (f : Bool → Byte → Byte) :
    s.aluR a f = .next (s.withPc (s.pc + 2)) := by
  simp [aluR, execute, aluRBody, validReg_of_ge ha]

theorem aluRR_valid {a b : Word} (ha : a.toNat < 16) (hb : b.toNat < 16) (f : Byte → Byte → Byte) :
    s.aluRR a b f = .next ((s.writeResult a (f (s.reg (regNo a)) (s.reg (regNo b)))).withPc (s.pc + 3)) := by
  simp only [aluRR, execute, aluRRBody, validReg_of_lt ha, validReg_of_lt hb, Bool.and_self, if_true]; rfl

theorem aluRR_invalid {a b : Word} (h : 16 ≤ a.toNat ∨ 16 ≤ b.toNat) (f : Byte → Byte → Byte) :
    s.aluRR a b f = .next (s.withPc (s.pc + 3)) := by
  rcases h with h | h <;> simp [aluRR, execute, aluRRBody, validReg_of_ge h]

theorem aluRI_valid {a b : Word} (ha : a.toNat < 16) (f : Byte → Byte → Byte) :
    s.aluRI a b f = .next ((s.writeResult a (f (s.reg (regNo a)) (imm8 b))).withPc (s.pc + 3)) := by
  simp only [aluRI, execute, aluRIBody, validReg_of_lt ha, if_true]; rfl

theorem aluRI_invalid {a b : Word} (ha : 16 ≤ a.toNat) (f : Byte → Byte → Byte) :
    s.aluRI a b f = .next (s.withPc (s.pc + 3)) := by
  simp [aluRI, execute, aluRIBody, validReg_of_ge ha]

theorem jumpIf_eq (a : Word) (cond : Bool → Bool) :
    s.jumpIf a cond = .next (s.withPc (if cond s.z then a.toNat + 1 else s.pc + 2)) := by
  by_cases h : cond s.z = true <;> simp [jumpIf, execute, jumpBody, targetOf, h]

/-- A byte result written back with its flags, from the exact integer it is the residue of (R140, R34). -/
theorem writeResult_eq {a : Word} {r : Byte} {v : Int} (len : Nat) (h : (r.toNat : Int) = v % 256) :
    (s.writeResult a r).withPc (s.pc + len) = s.withResult a v len := by
  have hr : r = BitVec.ofInt 8 v := by
    apply BitVec.eq_of_toNat_eq
    rw [BitVec.toNat_ofInt]; omega
  simp only [writeResult, setZN, setReg, withFlags, withMem, withPc, withResult, zeroOf_eq, negativeOf_eq, regNo]
  congr 1
  · rw [hr]
  · simp only [decide_eq_decide]; omega
  · simp only [decide_eq_decide]; omega

end State

end Sys2Proof.Machine
end

