-- ==== Sys2Proof/Laws/Decode.lean ====
section
/-! SUPPORT. Decoding: the opcode lookup under an injective map, the operands a decoder takes, and the words a step
fetches. -/

namespace Sys2Proof

theorem Mnemonic.mem_all (m : Mnemonic) : m ∈ Mnemonic.all := by
  cases m <;> decide

@[simp] theorem decodeStage_eq (w : Word) : decodeStage w = w := rfl

/-- In a list on which `f` is injective, searching for `f x` finds `x`. -/
theorem find_code {α β : Type} [DecidableEq β] (f : α → β) {l : List α} (hl : (l.map f).Nodup) {x : α} (hx : x ∈ l) :
    l.find? (fun y => f y == f x) = some x := by
  induction l with
  | nil => simp at hx
  | cons y t ih =>
    simp only [List.map_cons, List.nodup_cons, List.mem_map, not_exists, not_and] at hl
    obtain rfl | hx := List.mem_cons.1 hx
    · simp
    · have hne : f y ≠ f x := fun h => hl.1 x hx h.symm
      simp [hne, ih hl.2 hx]

namespace Config

variable {c : Config}

theorem Valid.opc_nodup (h : c.Valid) : (Mnemonic.all.map c.opc.code).Nodup := h.2.2.2.2.2.2.1

theorem Valid.bad_not_opcode (h : c.Valid) (m : Mnemonic) : c.badWord ≠ c.opc.code m := fun hm =>
  h.2.2.2.2.2.2.2 (hm ▸ List.mem_map.2 ⟨m, m.mem_all, rfl⟩)

/-- The opcode of a mnemonic is looked up as that mnemonic. -/
theorem lookup_code (h : c.Valid) (m : Mnemonic) : c.lookup (c.opc.code m) = some m :=
  find_code c.opc.code h.opc_nodup m.mem_all

/-- Only the opcode of a mnemonic is looked up as it. -/
theorem code_of_lookup {w : Word} {m : Mnemonic} (h : c.lookup w = some m) : c.opc.code m = w := by
  simpa using List.find?_some h

theorem lookup_badWord (h : c.Valid) : c.lookup c.badWord = none := by
  cases hl : c.lookup c.badWord with
  | none => rfl
  | some m => exact absurd (code_of_lookup hl).symm (h.bad_not_opcode m)

end Config

/-- How many operand words a pending instruction takes. -/
def Pending.count : Pending → Nat
  | .zero _ => 0
  | .one _ => 1
  | .two _ => 2

/-- A pending instruction with too few words left reports the first operand that is missing. -/
theorem Pending.take_short {p : Pending} {ws : List Word} (h : ws.length < p.count) :
    p.take ws = .error (.operandMissing (ws.length + 1)) := by
  match p, ws with
  | .zero _, _ => simp [count] at h
  | .one _, [] => rfl
  | .one _, _ :: _ => simp [count] at h
  | .two _, [] => rfl
  | .two _, [_] => rfl
  | .two _, _ :: _ :: _ => simp [count] at h

theorem Mnemonic.pending_count (m : Mnemonic) : m.pending.count = m.format.kinds.length := by
  cases m <;> rfl

theorem decode_opcode {c : Config} (h : c.Valid) (m : Mnemonic) (ws : List Word) :
    decode c (c.opc.code m :: ws) = m.pending.take ws := by
  simp [decode, Config.lookup_code h]

/-- A word that is no opcode stands alone. -/
theorem decode_no_opcode {c : Config} {w : Word} (h : c.lookup w = none) (ws : List Word) :
    decode c (w :: ws) = .ok (if w = c.badWord then .bad else .unknown w, ws) := by
  simp only [decode, decodeStage_eq, h]
  rfl

/-- The words of an instruction that has a mnemonic: its opcode word, then its operands. -/
theorem encode_of_mnemonic {i : Instr} {m : Mnemonic} (h : i.mnemonic = some m) (c : Config) :
    encode c i = c.opc.code m :: i.operands := by
  cases i <;> simp only [Instr.mnemonic, Option.some.injEq, reduceCtorEq] at h <;> subst h <;> rfl

/-- The decoder reads the operands an instruction was written with. -/
theorem Mnemonic.pending_take {i : Instr} {m : Mnemonic} (h : i.mnemonic = some m) (rest : List Word) :
    m.pending.take (i.operands ++ rest) = .ok (i, rest) := by
  cases i <;> simp only [Instr.mnemonic, Option.some.injEq, reduceCtorEq] at h <;> subst h <;> rfl

namespace Machine.State

variable {s : State}

/-- The words a step fetches: those of the at most three cells from `pc` on that lie in the store. -/
theorem wordsFrom_getElem? (k i j : Nat) :
    (s.wordsFrom k i)[j]? = if j < k ∧ i + j < s.cfg.progSize then some (s.progWord (i + j)) else none := by
  induction k generalizing i j with
  | zero => simp [wordsFrom]
  | succ k ih =>
    unfold wordsFrom
    split
    · rename_i hi
      cases j with
      | zero => simp [hi]
      | succ j =>
        rw [List.getElem?_cons_succ, ih]
        have h1 : i + 1 + j = i + (j + 1) := by omega
        simp only [h1, Nat.add_lt_add_iff_right]
    · rename_i hi
      rw [if_neg (by omega)]
      rfl

theorem fetchWords_running (h : s.pc < s.cfg.progSize) :
    s.fetchWords = s.progWord s.pc :: s.wordsFrom 2 (s.pc + 1) := by
  simp [fetchWords, wordsFrom, h]

theorem wordsFrom_two_full {i : Nat} (h : i + 1 < s.cfg.progSize) :
    s.wordsFrom 2 i = [s.progWord i, s.progWord (i + 1)] := by
  simp [wordsFrom, h, Nat.lt_of_succ_lt h]

theorem wordsFrom_two_one {i : Nat} (h : i + 1 = s.cfg.progSize) : s.wordsFrom 2 i = [s.progWord i] := by
  have h1 : i < s.cfg.progSize := by omega
  simp [wordsFrom, h1, h]

theorem wordsFrom_end (k : Nat) {i : Nat} (h : s.cfg.progSize ≤ i) : s.wordsFrom k i = [] := by
  cases k
  · rfl
  · simp [wordsFrom, Nat.not_lt.2 h]

end Machine.State

end Sys2Proof
end

