-- ==== Sys2Proof/Laws/Exec.lean ====
section
/-! SUPPORT. What `exec` is for each instruction over the shared operations, that every instruction answers a next
state, and what a step of a running core is. -/

namespace Sys2Proof.Machine

variable (s : State) (a b w : Word)

/-! ### The instructions that are a common shape -/

theorem exec_ldi : exec (.ldi a b) s = s.aluRI a b fun _ v => v := rfl
theorem exec_adiw : exec (.adiw a b) s = s.aluRI a b fun x y => x + y := rfl
theorem exec_subi : exec (.subi a b) s = s.aluRI a b fun x y => x - y := rfl
theorem exec_andi : exec (.andi a b) s = s.aluRI a b fun x y => x &&& y := rfl
theorem exec_ori : exec (.ori a b) s = s.aluRI a b fun x y => x ||| y := rfl
theorem exec_add : exec (.add a b) s = s.aluRR a b fun x y => x + y := rfl
theorem exec_sub : exec (.sub a b) s = s.aluRR a b fun x y => x - y := rfl
theorem exec_mul : exec (.mul a b) s = s.aluRR a b fun x y => x * y := rfl
theorem exec_and : exec (.and a b) s = s.aluRR a b fun x y => x &&& y := rfl
theorem exec_or : exec (.or a b) s = s.aluRR a b fun x y => x ||| y := rfl
theorem exec_eor : exec (.eor a b) s = s.aluRR a b fun x y => x ^^^ y := rfl
theorem exec_inc : exec (.inc a) s = s.aluR a fun _ x => x + 1 := rfl
theorem exec_dec : exec (.dec a) s = s.aluR a fun _ x => x - 1 := rfl
theorem exec_neg : exec (.neg a) s = s.aluR a fun _ x => 0 - x := rfl
theorem exec_ror : exec (.ror a) s = s.aluR a rorByN := rfl
theorem exec_jz : exec (.jz a) s = s.jumpIf a fun z => z := rfl
theorem exec_je : exec (.je a) s = s.jumpIf a fun z => z := rfl
theorem exec_jne : exec (.jne a) s = s.jumpIf a fun z => !z := rfl

/-! ### The other bodies: what each does on a valid operand, on an invalid one, and where it raises -/

section Bodies

variable {s : State} {a b : Word}

theorem movBody_valid (ha : a.toNat < 16) (hb : b.toNat < 16) :
    movBody a b s = .ok (s.withMem (s.mem.write a.toNat (s.mem.read b.toNat))) := by
  rw [movBody, validReg_of_lt ha, validReg_of_lt hb]; rfl

theorem movBody_invalid (h : 16 ≤ a.toNat ∨ 16 ≤ b.toNat) : movBody a b s = .ok s := by
  rcases h with h | h <;> simp [movBody, validReg_of_ge h]

theorem swapBody_valid (ha : a.toNat < 16) :
    swapBody a s = .ok (s.withMem (s.mem.write a.toNat (swapNibbles (s.mem.read a.toNat)))) := by
  rw [swapBody, validReg_of_lt ha]; rfl

theorem swapBody_invalid (h : 16 ≤ a.toNat) : swapBody a s = .ok s := by
  simp [swapBody, validReg_of_ge h]

theorem cpiBody_valid (ha : a.toNat < 16) : cpiBody a b s = .ok (s.setZN (s.mem.read a.toNat - imm8 b)) := by
  rw [cpiBody, validReg_of_lt ha]; rfl

theorem cpiBody_invalid (h : 16 ≤ a.toNat) : cpiBody a b s = .ok s := by
  simp [cpiBody, validReg_of_ge h]

theorem cpBody_valid (ha : a.toNat < 16) (hb : b.toNat < 16) :
    cpBody a b s = .ok (s.setZN (s.mem.read a.toNat - s.mem.read b.toNat)) := by
  rw [cpBody, validReg_of_lt ha, validReg_of_lt hb]; rfl

theorem cpBody_invalid (h : 16 ≤ a.toNat ∨ 16 ≤ b.toNat) : cpBody a b s = .ok s := by
  rcases h with h | h <;> simp [cpBody, validReg_of_ge h]

theorem movwBody_ok (ha : a.toNat + 1 < s.cfg.memSize) (hb : b.toNat + 1 < s.cfg.memSize) :
    movwBody a b s = .ok (s.withMem
      ((s.mem.write a.toNat (s.mem.read b.toNat)).write (a.toNat + 1) (s.mem.read (b.toNat + 1)))) := by
  have hlo : ((s.wordAt b.toNat).setWidth 8 : Byte) = s.mem.read b.toNat := by
    apply BitVec.eq_of_toNat_eq
    rw [State.low_toNat, State.wordAt_toNat]
    have := (s.mem.read b.toNat).isLt
    omega
  have hhi : ((s.wordAt b.toNat >>> 8).setWidth 8 : Byte) = s.mem.read (b.toNat + 1) := by
    apply BitVec.eq_of_toNat_eq
    rw [State.high_toNat, State.wordAt_toNat]
    have := (s.mem.read b.toNat).isLt
    omega
  rw [movwBody, addrOf, addrOf, if_pos (by omega), State.readWord_ok hb, Except.bind, State.writeWord_ok ha, hlo, hhi]

theorem movwBody_noop (h : s.cfg.memSize ≤ a.toNat ∨ s.cfg.memSize ≤ b.toNat) : movwBody a b s = .ok s := by
  rw [movwBody, addrOf, addrOf, if_neg (by omega)]

theorem movwBody_error (ha : a.toNat < s.cfg.memSize) (hb : b.toNat < s.cfg.memSize)
    (h : a.toNat + 1 = s.cfg.memSize ∨ b.toNat + 1 = s.cfg.memSize) :
    movwBody a b s = .error (.memFault s.cfg.memSize) := by
  rw [movwBody, addrOf, addrOf, if_pos ⟨ha, hb⟩]
  by_cases hb1 : b.toNat + 1 = s.cfg.memSize
  · rw [State.readWord_error_high hb1, Except.bind, hb1]
  · have ha1 : a.toNat + 1 = s.cfg.memSize := by omega
    rw [State.readWord_ok (by omega), Except.bind, State.writeWord_error_high ha1, ha1]

/-- Under valid parameters both bytes of SP exist. -/
theorem spAddr_lt (hc : s.cfg.Valid) : s.cfg.spAddr + 1 < s.cfg.memSize := by
  have := hc.1.1
  have := hc.2.2.1
  omega

theorem pushBody_ok (hc : s.cfg.Valid) (ha : a.toNat < 16) (h : s.sp.toNat < s.cfg.memSize) :
    let t := s.withMem (s.mem.write s.sp.toNat (s.mem.read a.toNat))
    pushBody a s = .ok (t.withMem
      ((t.mem.write s.cfg.spAddr ((t.sp - 1).setWidth 8)).write (s.cfg.spAddr + 1) (((t.sp - 1) >>> 8).setWidth 8))) := by
  have hs := spAddr_lt hc
  intro t
  have ht : t.cfg = s.cfg := rfl
  rw [pushBody, if_pos (validReg_of_lt ha), State.readWord_ok hs, Except.bind]
  change ((s.writeByte s.sp.toNat (s.mem.read a.toNat)).bind _) = _
  rw [State.writeByte_ok h, Except.bind]
  change ((t.readWord t.cfg.spAddr).bind _) = _
  rw [State.readWord_ok (by rw [ht]; exact hs), Except.bind]
  exact State.writeWord_ok (by rw [ht]; exact hs) _

theorem pushBody_noop (h : 16 ≤ a.toNat) : pushBody a s = .ok s := by
  simp [pushBody, validReg_of_ge h]

theorem pushBody_error (hc : s.cfg.Valid) (ha : a.toNat < 16) (h : s.cfg.memSize ≤ s.sp.toNat) :
    pushBody a s = .error (.memFault s.sp.toNat) := by
  rw [pushBody, if_pos (validReg_of_lt ha), State.readWord_ok (spAddr_lt hc), Except.bind]
  change ((s.writeByte s.sp.toNat _).bind _) = _
  rw [State.writeByte_error h, Except.bind]

theorem popBody_ok (hc : s.cfg.Valid) (hm : s.mem.wf = true) (ha : a.toNat < 16)
    (h : (s.sp + 1).toNat < s.cfg.memSize) :
    let t := s.withMem
      ((s.mem.write s.cfg.spAddr ((s.sp + 1).setWidth 8)).write (s.cfg.spAddr + 1) (((s.sp + 1) >>> 8).setWidth 8))
    popBody a s = .ok (t.withMem (t.mem.write a.toNat (t.mem.read (s.sp + 1).toNat))) := by
  have hs := spAddr_lt hc
  intro t
  have ht : t.cfg = s.cfg := rfl
  have hsp : t.wordAt s.cfg.spAddr = s.sp + 1 := State.wordAt_write hm _
  rw [popBody, if_pos (validReg_of_lt ha), State.readWord_ok hs, Except.bind]
  change (if (s.sp + 1).toNat < s.cfg.memSize then (s.writeWord s.cfg.spAddr (s.sp + 1)).bind _ else _) = _
  rw [if_pos h, State.writeWord_ok hs, Except.bind]
  change ((t.readWord s.cfg.spAddr).bind _) = _
  rw [State.readWord_ok (by rw [ht]; exact hs), Except.bind, hsp, State.readByte_ok (by rw [ht]; exact h)]
  rfl

theorem popBody_noop (h : 16 ≤ a.toNat) : popBody a s = .ok s := by
  simp [popBody, validReg_of_ge h]

theorem popBody_error (hc : s.cfg.Valid) (ha : a.toNat < 16) (h : s.cfg.memSize ≤ (s.sp + 1).toNat) :
    popBody a s = .error (.memFault (s.sp + 1).toNat) := by
  rw [popBody, if_pos (validReg_of_lt ha), State.readWord_ok (spAddr_lt hc), Except.bind]
  exact if_neg (Nat.not_lt.2 h)

theorem outBody_ok (hb : b.toNat < 16) (ha : a.toNat < s.cfg.memSize) :
    outBody a b s =
      .ok ((s.withMem (s.mem.write a.toNat (s.mem.read b.toNat))).portEffect a.toNat (s.mem.read b.toNat)) := by
  rw [outBody, if_pos (validReg_of_lt hb), addrOf, State.writeByte_ok ha]
  rfl

theorem outBody_noop (h : 16 ≤ b.toNat) : outBody a b s = .ok s := by
  simp [outBody, validReg_of_ge h]

theorem outBody_error (hb : b.toNat < 16) (ha : s.cfg.memSize ≤ a.toNat) :
    outBody a b s = .error (.memFault a.toNat) := by
  rw [outBody, if_pos (validReg_of_lt hb), addrOf, State.writeByte_error ha]
  rfl

theorem inBody_ok (ha : a.toNat < 16) (hb : b.toNat < s.cfg.memSize) :
    inBody a b s = .ok (s.withMem (s.mem.write a.toNat (s.mem.read b.toNat))) := by
  rw [inBody, if_pos (validReg_of_lt ha), addrOf, State.readByte_ok hb]
  rfl

theorem inBody_noop (h : 16 ≤ a.toNat) : inBody a b s = .ok s := by
  simp [inBody, validReg_of_ge h]

theorem inBody_error (ha : a.toNat < 16) (hb : s.cfg.memSize ≤ b.toNat) :
    inBody a b s = .error (.memFault b.toNat) := by
  rw [inBody, if_pos (validReg_of_lt ha), addrOf, State.readByte_error hb]
  rfl

/-- What MOVW can do: write two cells in range, nothing, or raise MemFault. -/
theorem movwBody_cases (a b : Word) (s : State) :
    (∃ v v', a.toNat < s.cfg.memSize ∧ b.toNat < s.cfg.memSize ∧ a.toNat + 1 < s.cfg.memSize ∧
      movwBody a b s = .ok (s.withMem ((s.mem.write a.toNat v).write (a.toNat + 1) v'))) ∨
    movwBody a b s = .ok s ∨ ∃ y, s.cfg.memSize ≤ y ∧ movwBody a b s = .error (.memFault y) := by
  unfold movwBody addrOf
  split
  · obtain ⟨-, h⟩ | ⟨y, hy, h⟩ := s.readWord_cases b.toNat <;> rw [h]
    · obtain ⟨hw, h⟩ | ⟨y, hy, h⟩ := s.writeWord_cases a.toNat (s.wordAt b.toNat) <;> rw [Except.bind, h]
      · exact .inl ⟨_, _, by omega, by omega, hw, rfl⟩
      · exact .inr (.inr ⟨y, hy, rfl⟩)
    · exact .inr (.inr ⟨y, hy, rfl⟩)
  · exact .inr (.inl rfl)

/-- What PUSH can do: write the stack cell and the two bytes of SP, nothing, or raise MemFault. -/
theorem pushBody_cases (a : Word) (s : State) :
    (∃ v v1 v2, s.sp.toNat < s.cfg.memSize ∧ s.cfg.spAddr + 1 < s.cfg.memSize ∧ a.toNat < 16 ∧
      pushBody a s = .ok (s.withMem
        (((s.mem.write s.sp.toNat v).write s.cfg.spAddr v1).write (s.cfg.spAddr + 1) v2))) ∨
    pushBody a s = .ok s ∨ ∃ y, s.cfg.memSize ≤ y ∧ pushBody a s = .error (.memFault y) := by
  unfold pushBody
  split
  · rename_i ha
    obtain ⟨-, h⟩ | ⟨y, hy, h⟩ := s.readWord_cases s.cfg.spAddr <;> rw [h, Except.bind]
    · obtain ⟨h1, h⟩ | ⟨y, hy, h⟩ := s.writeByte_cases (s.wordAt s.cfg.spAddr).toNat (s.reg (regNo a)) <;>
        rw [h, Except.bind]
      · simp only [State.withMem_cfg]
        generalize hm : s.mem.write (s.wordAt s.cfg.spAddr).toNat (s.reg (regNo a)) = m
        obtain ⟨-, h⟩ | ⟨y, hy, h⟩ := (s.withMem m).readWord_cases s.cfg.spAddr <;> rw [h, Except.bind]
        · obtain ⟨h2, h⟩ | ⟨y, hy, h⟩ := (s.withMem m).writeWord_cases s.cfg.spAddr ((s.withMem m).wordAt s.cfg.spAddr - 1) <;> rw [h]
          · exact .inl ⟨s.reg (regNo a), _, _, h1, h2, (validReg_iff a).1 ha, by rw [← hm]; rfl⟩
          · exact .inr (.inr ⟨y, hy, rfl⟩)
        · exact .inr (.inr ⟨y, hy, rfl⟩)
      · exact .inr (.inr ⟨y, hy, rfl⟩)
    · exact .inr (.inr ⟨y, hy, rfl⟩)
  · exact .inr (.inl rfl)

/-- What POP can do: write the two bytes of SP and the register, nothing, or raise MemFault. -/
theorem popBody_cases (a : Word) (s : State) :
    (∃ v v1 v2, s.cfg.spAddr + 1 < s.cfg.memSize ∧ a.toNat < 16 ∧
      popBody a s = .ok (s.withMem
        (((s.mem.write s.cfg.spAddr v1).write (s.cfg.spAddr + 1) v2).write a.toNat v))) ∨
    popBody a s = .ok s ∨ ∃ y, s.cfg.memSize ≤ y ∧ popBody a s = .error (.memFault y) := by
  unfold popBody
  split
  · rename_i ha
    obtain ⟨-, h⟩ | ⟨y, hy, h⟩ := s.readWord_cases s.cfg.spAddr <;> rw [h, Except.bind]
    · split
      · obtain ⟨h2, h⟩ | ⟨y, hy, h⟩ := s.writeWord_cases s.cfg.spAddr (s.wordAt s.cfg.spAddr + 1) <;> rw [h, Except.bind]
        · simp only [State.withMem_cfg]
          generalize hm : (s.mem.write _ _).write _ _ = m
          obtain ⟨-, h⟩ | ⟨y, hy, h⟩ := (s.withMem m).readWord_cases s.cfg.spAddr <;> rw [h, Except.bind]
          · obtain ⟨-, h⟩ | ⟨y, hy, h⟩ := (s.withMem m).readByte_cases ((s.withMem m).wordAt s.cfg.spAddr).toNat <;> rw [h, Except.bind]
            · exact .inl ⟨_, _, _, h2, (validReg_iff a).1 ha, by rw [← hm]; rfl⟩
            · exact .inr (.inr ⟨y, hy, rfl⟩)
          · exact .inr (.inr ⟨y, hy, rfl⟩)
        · exact .inr (.inr ⟨y, hy, rfl⟩)
      · exact .inr (.inr ⟨_, by omega, rfl⟩)
    · exact .inr (.inr ⟨y, hy, rfl⟩)
  · exact .inr (.inl rfl)

end Bodies

/-! ### The byte functions of SWAP and ROR as numbers -/

theorem swapNibbles_eq (x : Byte) : swapNibbles x = BitVec.ofNat 8 (x.toNat % 16 * 16 + x.toNat / 16) := by
  revert x; decide +kernel

theorem swapNibbles_swapNibbles (x : Byte) : swapNibbles (swapNibbles x) = x := by
  revert x; decide +kernel

theorem rorByN_toNat (n : Bool) (x : Byte) : (rorByN n x).toNat = (if n then 128 else 0) + x.toNat / 2 := by
  revert n x; decide +kernel

/-! ### Every instruction answers, and what a step is -/

/-- What each instruction does after its operand fetches: its meaning's body. -/
def body : Instr → State → Except Raise State
  | .ldi a b => State.aluRIBody a b fun _ v => v
  | .mov a b => movBody a b
  | .movw a b => movwBody a b
  | .push a => pushBody a
  | .pop a => popBody a
  | .adiw a b => State.aluRIBody a b fun x y => x + y
  | .add a b => State.aluRRBody a b fun x y => x + y
  | .subi a b => State.aluRIBody a b fun x y => x - y
  | .sub a b => State.aluRRBody a b fun x y => x - y
  | .mul a b => State.aluRRBody a b mulLow
  | .inc a => State.aluRBody a fun _ x => x + 1
  | .dec a => State.aluRBody a fun _ x => x - 1
  | .swap a => swapBody a
  | .neg a => State.aluRBody a fun _ x => 0 - x
  | .ror a => State.aluRBody a rorByN
  | .andi a b => State.aluRIBody a b fun x y => x &&& y
  | .and a b => State.aluRRBody a b fun x y => x &&& y
  | .ori a b => State.aluRIBody a b fun x y => x ||| y
  | .or a b => State.aluRRBody a b fun x y => x ||| y
  | .eor a b => State.aluRRBody a b fun x y => x ^^^ y
  | .cpi a b => cpiBody a b
  | .cp a b => cpBody a b
  | .jz a => State.jumpBody a fun z => z
  | .je a => State.jumpBody a fun z => z
  | .jne a => State.jumpBody a fun z => !z
  | .brk => fun s => .ok s.halt
  | .nop => fun s => .ok s
  | .out a b => outBody a b
  | .inp a b => inBody a b
  | .bad => fun s => .ok (s.logDiag s.pc s.cfg.badWord)
  | .unknown w => fun s => .ok (s.logDiag s.pc w)

/-- Every instruction is its body in the frame of its operand count. -/
theorem exec_eq_execute (i : Instr) : exec i s = s.execute i.operands.length (body i) := by
  cases i <;> rfl

/-- No body touches the parameters, the program store or the fault record; all a body can raise is MemFault, at an
address out of range. -/
theorem body_cases (i : Instr) (s : State) :
    (∃ u, body i s = .ok u ∧ u.cfg = s.cfg ∧ u.prog = s.prog ∧ u.fault = s.fault) ∨
    ∃ y, s.cfg.memSize ≤ y ∧ body i s = .error (.memFault y) := by
  cases i with
  | movw a b =>
    obtain ⟨_, _, -, -, -, h⟩ | h | h := movwBody_cases a b s
    · exact .inl ⟨_, h, rfl, rfl, rfl⟩
    · exact .inl ⟨_, h, rfl, rfl, rfl⟩
    · exact .inr h
  | push a =>
    obtain ⟨_, _, _, -, -, -, h⟩ | h | h := pushBody_cases a s
    · exact .inl ⟨_, h, rfl, rfl, rfl⟩
    · exact .inl ⟨_, h, rfl, rfl, rfl⟩
    · exact .inr h
  | pop a =>
    obtain ⟨_, _, _, -, -, h⟩ | h | h := popBody_cases a s
    · exact .inl ⟨_, h, rfl, rfl, rfl⟩
    · exact .inl ⟨_, h, rfl, rfl, rfl⟩
    · exact .inr h
  | out a b =>
    by_cases hb : b.toNat < 16
    · by_cases ha : a.toNat < s.cfg.memSize
      · exact .inl ⟨_, outBody_ok hb ha, by simp, by simp, by simp⟩
      · exact .inr ⟨_, by omega, outBody_error hb (by omega)⟩
    · exact .inl ⟨_, outBody_noop (by omega), rfl, rfl, rfl⟩
  | inp a b =>
    by_cases ha : a.toNat < 16
    · by_cases hb : b.toNat < s.cfg.memSize
      · exact .inl ⟨_, inBody_ok ha hb, rfl, rfl, rfl⟩
      · exact .inr ⟨_, by omega, inBody_error ha (by omega)⟩
    · exact .inl ⟨_, inBody_noop (by omega), rfl, rfl, rfl⟩
  | bad => exact .inl ⟨_, rfl, by simp, by simp, by simp⟩
  | unknown => exact .inl ⟨_, rfl, by simp, by simp, by simp⟩
  | brk => exact .inl ⟨_, rfl, rfl, rfl, rfl⟩
  | nop => exact .inl ⟨_, rfl, rfl, rfl, rfl⟩
  | _ =>
    refine .inl ⟨_, rfl, ?_⟩
    split <;> exact ⟨rfl, rfl, rfl⟩
/-- What an instruction can do: its body completes and the loop's increment follows, or the fault is taken. -/
theorem exec_cases {i : Instr} {s t : State} (h : exec i s = .next t) :
    (∃ u, body i (s.withPc (s.pc + i.operands.length)) = .ok u ∧ t = u.withPc (u.pc + 1)) ∨
    (∃ r, body i (s.withPc (s.pc + i.operands.length)) = .error r ∧ t = s.takeFault r) :=
  State.execute_cases (exec_eq_execute s i ▸ h)

/-- No instruction is refused or stops the machine by itself. -/
theorem exec_answers (i : Instr) : ∃ t, exec i s = .next t := by
  exact exec_eq_execute s i ▸ s.execute_answers _ _

variable {s}

theorem step_running (h : s.Running) :
    step s = match s.fetchInstr with
      | .ok i => exec i s
      | .error r => .next (s.takeFault r) := by
  unfold step
  rw [h.1]
  exact if_pos h.2

/-- The words at `pc` decode: the step executes the instruction. -/
theorem step_of_decode (h : s.Running) {i : Instr} {rest : List Word}
    (hd : decode s.cfg s.fetchWords = .ok (i, rest)) : step s = exec i s := by
  rw [step_running h, State.fetchInstr, hd]

/-- The words at `pc` end too early: the step takes `FetchFault`. -/
theorem step_of_decode_error (h : s.Running) {e : DecodeError} (hd : decode s.cfg s.fetchWords = .error e) :
    step s = .next (s.takeFault (.fetchFault (s.pc + e.offset))) := by
  rw [step_running h, State.fetchInstr, hd]

/-- What a step can do. -/
theorem step_cases {t : State} (h : step s = .next t) :
    s.Running ∧ ((∃ i rest, decode s.cfg s.fetchWords = .ok (i, rest) ∧ exec i s = .next t) ∨
      ∃ e, decode s.cfg s.fetchWords = .error e ∧ t = s.takeFault (.fetchFault (s.pc + e.offset))) := by
  have hr : s.Running := by
    unfold step at h
    split at h
    · simp at h
    · split at h
      · exact ⟨‹_›, ‹_›⟩
      · simp at h
  refine ⟨hr, ?_⟩
  cases hd : decode s.cfg s.fetchWords with
  | ok p => exact .inl ⟨p.1, p.2, rfl, step_of_decode hr hd ▸ h⟩
  | error e =>
    rw [step_of_decode_error hr hd] at h
    exact .inr ⟨e, rfl, by simpa using h.symm⟩

/-! ### Runs: the first step first, stopping where it stops -/

theorem run_next {s t : core.State} (h : core.step s = .next t) (k : Nat) : core.run (k + 1) s = core.run k t := by
  simp only [Host.Core.run, h]

theorem run_fault {s : core.State} {f : core.Fault} (h : core.step s = .fault f) (k : Nat) :
    core.run (k + 1) s = .fault f := by
  simp only [Host.Core.run, h]

theorem run_refused {s : core.State} {f : core.Refusal} (h : core.step s = .refused f) (k : Nat) :
    core.run (k + 1) s = .refused f := by
  simp only [Host.Core.run, h]

end Sys2Proof.Machine
end

