-- ==== Sys2Proof/Laws/Aside.lean ====
section
/-! SUPPORT. Updates beside the memory: the memory primitives and the data movement bodies do the same before and after
an update of a field they do not read. -/

namespace Sys2Proof.Machine

/-- An update that touches neither memory nor the sizes and addresses the memory instructions use. -/
structure Aside (f : State → State) : Prop where
  mem : ∀ s, (f s).mem = s.mem
  memSize : ∀ s, (f s).cfg.memSize = s.cfg.memSize
  spAddr : ∀ s, (f s).cfg.spAddr = s.cfg.spAddr
  withMem : ∀ s m, f (s.withMem m) = (f s).withMem m

namespace Aside
variable {f : State → State} (hf : Aside f) (s : State) (a b : Word)
include hf

/-- The primitives and the bodies that only move data commute with such an update. -/
theorem readByte (x : Nat) : (f s).readByte x = s.readByte x := by
  simp only [State.readByte, hf.mem, hf.memSize]

theorem wordAt (x : Nat) : (f s).wordAt x = s.wordAt x := by
  simp only [State.wordAt, hf.mem]

theorem readWord (x : Nat) : (f s).readWord x = s.readWord x := by
  simp only [State.readWord, hf.wordAt, hf.memSize]

theorem writeByte (x : Nat) (v : Byte) : (f s).writeByte x v = (s.writeByte x v).map f := by
  simp only [State.writeByte, hf.mem, hf.memSize]
  split
  · exact congrArg Except.ok (hf.withMem _ _).symm
  · rfl

theorem writeWord (x : Nat) (v : Word) : (f s).writeWord x v = (s.writeWord x v).map f := by
  simp only [State.writeWord, hf.mem, hf.memSize]
  split
  · split
    · exact congrArg Except.ok (hf.withMem _ _).symm
    · rfl
  · rfl

theorem reg (x : Nat) : (f s).reg x = s.reg x := by
  simp only [State.reg, hf.mem]

theorem setReg (x : Nat) (v : Byte) : (f s).setReg x v = f (s.setReg x v) := by
  simp only [State.setReg, hf.mem, hf.withMem]

theorem movBody : movBody a b (f s) = (movBody a b s).map f := by
  simp only [Machine.movBody, hf.reg, hf.setReg]
  split <;> rfl

theorem swapBody : swapBody a (f s) = (swapBody a s).map f := by
  simp only [Machine.swapBody, hf.reg, hf.setReg]
  split <;> rfl

theorem movwBody : movwBody a b (f s) = (movwBody a b s).map f := by
  simp only [Machine.movwBody, hf.memSize, hf.readWord, hf.writeWord]
  split
  · cases s.readWord (addrOf b) <;> rfl
  · rfl

theorem pushBody : pushBody a (f s) = (pushBody a s).map f := by
  simp only [Machine.pushBody, hf.spAddr, hf.readWord, hf.writeByte, hf.reg]
  split
  · cases s.readWord s.cfg.spAddr with
    | error => rfl
    | ok w =>
      simp only [Except.bind]
      cases s.writeByte w.toNat (s.reg (regNo a)) with
      | error => rfl
      | ok t =>
        simp only [Except.map, hf.spAddr, hf.readWord, hf.writeWord]
        cases t.readWord t.cfg.spAddr <;> rfl
  · rfl

theorem popBody : popBody a (f s) = (popBody a s).map f := by
  simp only [Machine.popBody, hf.spAddr, hf.memSize, hf.readWord, hf.writeWord]
  split
  · cases s.readWord s.cfg.spAddr with
    | error => rfl
    | ok w =>
      simp only [Except.bind]
      split
      · cases s.writeWord s.cfg.spAddr (w + 1) with
        | error => rfl
        | ok t =>
          simp only [Except.map, hf.spAddr, hf.readWord, hf.readByte]
          cases t.readWord t.cfg.spAddr with
          | error => rfl
          | ok w =>
            simp only
            cases t.readByte w.toNat with
            | error => rfl
            | ok v => exact congrArg Except.ok (hf.setReg _ _ _)
      · rfl
  · rfl

theorem inBody : inBody a b (f s) = (inBody a b s).map f := by
  simp only [Machine.inBody, hf.readByte, hf.setReg]
  split
  · cases s.readByte (addrOf b) <;> rfl
  · rfl
end Aside
end Sys2Proof.Machine
end

