-- ==== Sys2Proof/Laws/PerInstr.lean ====
section
/-! SUPPORT. The family EncodedLength: an instruction occupies 1, 2 or 3 words, its opcode word and one word for every
operand its format names (spec/30_encoding.md R80, R81, R83). -/

namespace Sys2Proof.Laws.EncodedLength

/-- The encoding of `i` has the length of `i`, which is 1 plus the operands of its format and at most 3. -/
def Statement (i : Instr) : Prop :=
  ∀ c : Config, (encode c i).length = i.length ∧ i.length = 1 + i.kinds.length ∧ i.length ≤ 3

theorem ldi (a b : Word) : Statement (.ldi a b) := fun _ => ⟨rfl, rfl, Nat.le_of_ble_eq_true rfl⟩
theorem mov (a b : Word) : Statement (.mov a b) := fun _ => ⟨rfl, rfl, Nat.le_of_ble_eq_true rfl⟩
theorem movw (a b : Word) : Statement (.movw a b) := fun _ => ⟨rfl, rfl, Nat.le_of_ble_eq_true rfl⟩
theorem push (a : Word) : Statement (.push a) := fun _ => ⟨rfl, rfl, Nat.le_of_ble_eq_true rfl⟩
theorem pop (a : Word) : Statement (.pop a) := fun _ => ⟨rfl, rfl, Nat.le_of_ble_eq_true rfl⟩
theorem adiw (a b : Word) : Statement (.adiw a b) := fun _ => ⟨rfl, rfl, Nat.le_of_ble_eq_true rfl⟩
theorem add (a b : Word) : Statement (.add a b) := fun _ => ⟨rfl, rfl, Nat.le_of_ble_eq_true rfl⟩
theorem subi (a b : Word) : Statement (.subi a b) := fun _ => ⟨rfl, rfl, Nat.le_of_ble_eq_true rfl⟩
theorem sub (a b : Word) : Statement (.sub a b) := fun _ => ⟨rfl, rfl, Nat.le_of_ble_eq_true rfl⟩
theorem mul (a b : Word) : Statement (.mul a b) := fun _ => ⟨rfl, rfl, Nat.le_of_ble_eq_true rfl⟩
theorem inc (a : Word) : Statement (.inc a) := fun _ => ⟨rfl, rfl, Nat.le_of_ble_eq_true rfl⟩
theorem dec (a : Word) : Statement (.dec a) := fun _ => ⟨rfl, rfl, Nat.le_of_ble_eq_true rfl⟩
theorem swap (a : Word) : Statement (.swap a) := fun _ => ⟨rfl, rfl, Nat.le_of_ble_eq_true rfl⟩
theorem neg (a : Word) : Statement (.neg a) := fun _ => ⟨rfl, rfl, Nat.le_of_ble_eq_true rfl⟩
theorem ror (a : Word) : Statement (.ror a) := fun _ => ⟨rfl, rfl, Nat.le_of_ble_eq_true rfl⟩
theorem andi (a b : Word) : Statement (.andi a b) := fun _ => ⟨rfl, rfl, Nat.le_of_ble_eq_true rfl⟩
theorem and (a b : Word) : Statement (.and a b) := fun _ => ⟨rfl, rfl, Nat.le_of_ble_eq_true rfl⟩
theorem ori (a b : Word) : Statement (.ori a b) := fun _ => ⟨rfl, rfl, Nat.le_of_ble_eq_true rfl⟩
theorem or (a b : Word) : Statement (.or a b) := fun _ => ⟨rfl, rfl, Nat.le_of_ble_eq_true rfl⟩
theorem eor (a b : Word) : Statement (.eor a b) := fun _ => ⟨rfl, rfl, Nat.le_of_ble_eq_true rfl⟩
theorem cpi (a b : Word) : Statement (.cpi a b) := fun _ => ⟨rfl, rfl, Nat.le_of_ble_eq_true rfl⟩
theorem cp (a b : Word) : Statement (.cp a b) := fun _ => ⟨rfl, rfl, Nat.le_of_ble_eq_true rfl⟩
theorem jz (a : Word) : Statement (.jz a) := fun _ => ⟨rfl, rfl, Nat.le_of_ble_eq_true rfl⟩
theorem je (a : Word) : Statement (.je a) := fun _ => ⟨rfl, rfl, Nat.le_of_ble_eq_true rfl⟩
theorem jne (a : Word) : Statement (.jne a) := fun _ => ⟨rfl, rfl, Nat.le_of_ble_eq_true rfl⟩
theorem brk : Statement .brk := fun _ => ⟨rfl, rfl, Nat.le_of_ble_eq_true rfl⟩
theorem nop : Statement .nop := fun _ => ⟨rfl, rfl, Nat.le_of_ble_eq_true rfl⟩
theorem out (a b : Word) : Statement (.out a b) := fun _ => ⟨rfl, rfl, Nat.le_of_ble_eq_true rfl⟩
theorem inp (a b : Word) : Statement (.inp a b) := fun _ => ⟨rfl, rfl, Nat.le_of_ble_eq_true rfl⟩
theorem bad : Statement .bad := fun _ => ⟨rfl, rfl, Nat.le_of_ble_eq_true rfl⟩
theorem unknown (w : Word) : Statement (.unknown w) := fun _ => ⟨rfl, rfl, Nat.le_of_ble_eq_true rfl⟩

end Sys2Proof.Laws.EncodedLength
end

