-- ==== Sys2Proof/Tests/Slice0.lean ====
section
/-! SUPPORT. The model's own tests. Expected values come from spec/95_test_vectors.md (V and L numbers, S6), from the
encoding table of spec/30_encoding.md R81 and R84, or from a hand reading of the rule cited. Then, for every statement
with hypotheses, a state and operands that meet them all, at the boundary of each clause. -/

open Sys2Proof Sys2Proof.Machine

namespace Sys2Proof.Tests

/-! ### Well-formedness: an instruction that may not stand for its word is refused -/

theorem test_wf_default_valid : Config.default.Valid := by decide

theorem test_wf_refuses_unknown_opcode : (Instr.unknown 0x0000).wf Config.default = false := by decide

theorem test_wf_refuses_unknown_last_opcode : (Instr.unknown 0x001C).wf Config.default = false := by decide

theorem test_wf_refuses_unknown_bad_word : (Instr.unknown 0xFFFF).wf Config.default = false := by decide

theorem test_wf_accepts_unknown : (Instr.unknown 0x001D).wf Config.default = true := by decide

/-- Two mnemonics with one opcode are no valid parameters (R5: `OPC` is injective). -/
theorem test_wf_refuses_colliding_opcodes :
    ¬ ({ Config.default with opc := { defaultOpcodes with je := 0x0016 } } : Config).Valid := by decide

/-- A console port inside the register file is no valid parameter (R5). -/
theorem test_wf_refuses_port_in_registers : ¬ ({ Config.default with portConsole := 15 } : Config).Valid := by decide

/-! ### Decoding: one word sequence for every constructor, written out from R84 (opcode) and R81 (operand order) -/

theorem test_decode_ldi : decodeTableWord 48 0x008000080000 = some (.ldi 8 0x80) := by decide

theorem test_decode_mov : decodeTableWord 48 0x000100020001 = some (.mov 2 1) := by decide

theorem test_decode_movw : decodeTableWord 48 0x0000000E0002 = some (.movw 14 0) := by decide

theorem test_decode_push : decodeTableWord 32 0x00020003 = some (.push 2) := by decide

theorem test_decode_pop : decodeTableWord 32 0x00030004 = some (.pop 3) := by decide

theorem test_decode_adiw : decodeTableWord 48 0x000A00010005 = some (.adiw 1 10) := by decide

theorem test_decode_add : decodeTableWord 48 0x000100000006 = some (.add 0 1) := by decide

theorem test_decode_subi : decodeTableWord 48 0x000500010007 = some (.subi 1 5) := by decide

theorem test_decode_sub : decodeTableWord 48 0x000300020008 = some (.sub 2 3) := by decide

theorem test_decode_mul : decodeTableWord 48 0x000200010009 = some (.mul 1 2) := by decide

theorem test_decode_inc : decodeTableWord 32 0x0004000A = some (.inc 4) := by decide

theorem test_decode_dec : decodeTableWord 32 0x0001000B = some (.dec 1) := by decide

theorem test_decode_swap : decodeTableWord 32 0x0005000C = some (.swap 5) := by decide

theorem test_decode_neg : decodeTableWord 32 0x0006000D = some (.neg 6) := by decide

theorem test_decode_ror : decodeTableWord 32 0x0008000E = some (.ror 8) := by decide

theorem test_decode_andi : decodeTableWord 48 0x00F00001000F = some (.andi 1 0xF0) := by decide

theorem test_decode_and : decodeTableWord 48 0x000200010010 = some (.and 1 2) := by decide

theorem test_decode_ori : decodeTableWord 48 0x008000010011 = some (.ori 1 0x80) := by decide

theorem test_decode_or : decodeTableWord 48 0x000200010012 = some (.or 1 2) := by decide

theorem test_decode_eor : decodeTableWord 48 0x000200010013 = some (.eor 1 2) := by decide

theorem test_decode_cpi : decodeTableWord 48 0x00C800010014 = some (.cpi 1 200) := by decide

theorem test_decode_cp : decodeTableWord 48 0x000200010015 = some (.cp 1 2) := by decide

theorem test_decode_jz : decodeTableWord 32 0x00040016 = some (.jz 4) := by decide

theorem test_decode_je : decodeTableWord 32 0x001E0017 = some (.je 30) := by decide

theorem test_decode_jne : decodeTableWord 32 0xFFFF0018 = some (.jne 0xFFFF) := by decide

theorem test_decode_break : decodeTableWord 16 0x0019 = some (.brk) := by decide

theorem test_decode_nop : decodeTableWord 16 0x001A = some (.nop) := by decide

theorem test_decode_out : decodeTableWord 48 0x00080010001B = some (.out 16 8) := by decide

theorem test_decode_in : decodeTableWord 48 0x00400005001C = some (.inp 5 0x40) := by decide

theorem test_decode_bad : decodeTableWord 16 0xFFFF = some (.bad) := by decide

theorem test_decode_unknown : decodeTableWord 16 0x0100 = some (.unknown 0x0100) := by decide

/-- The words run out after the first operand: the second is missing (R103). -/
theorem test_decode_operand_missing : decode Config.default [0x0006, 0x0001] = .error (.operandMissing 2) := by decide

/-- Operand words are taken in the order `a`, `b` and the words after them are left (R103). -/
theorem test_encode_out : encode Config.default (.out 16 8) = [0x001B, 0x0010, 0x0008] := by decide

/-! ### One step: at most two vectors of spec/95_test_vectors.md for each instruction -/

/-- The state of a vector: the default parameters, these cells and flags, the words at `pc`. -/
def at_ (words : List Word) (mem : Memory) (z n : Bool) (pc : Nat) : State :=
  ({ State.reset with mem := mem, z := z, n := n, pc := pc }).storeWords pc words

/-- What a vector says of the state after the step. -/
structure Seen where
  mem : Memory
  z : Bool
  n : Bool
  pc : Nat
  console : List Byte
  fault : Option FaultRecord
  deriving DecidableEq, Repr

/-- One step of the machine as a vector shows it. -/
def seen (s : State) : Option Seen :=
  match step s with
  | .next t => some ⟨t.mem, t.z, t.n, t.pc, t.console, t.fault⟩
  | .fault _ => none
  | .refused _ => none

/-- V6: LDI R1, 0x01FF (imm above a byte). -/
theorem test_ldi_V6 : seen (at_ [0x0000, 0x0001, 0x01FF] [] false false 0) =
    some ⟨[(1, 255)], false, true, 3, [], none⟩ := by decide

/-- V9: LDI 0x0108, 5 (invalid: operand is not masked to 4 bits). -/
theorem test_ldi_V9 : seen (at_ [0x0000, 0x0108, 0x0005] [] false false 0) =
    some ⟨[], false, false, 3, [], none⟩ := by decide

/-- V11: MOV R2, R1. -/
theorem test_mov_V11 : seen (at_ [0x0001, 0x0002, 0x0001] [(1, 90)] true false 0) =
    some ⟨[(1, 90), (2, 90)], true, false, 3, [], none⟩ := by decide

/-- V13: MOV R2, 16 (invalid source). -/
theorem test_mov_V13 : seen (at_ [0x0001, 0x0002, 0x0010] [(2, 7), (16, 9)] false false 0) =
    some ⟨[(2, 7), (16, 9)], false, false, 3, [], none⟩ := by decide

/-- V17: MOVW 0x31, 0x30 (overlap a=b+1). -/
theorem test_movw_V17 : seen (at_ [0x0002, 0x0031, 0x0030] [(48, 170), (49, 187), (50, 204)] false false 0) =
    some ⟨[(48, 170), (49, 170), (50, 187)], false, false, 3, [], none⟩ := by decide

/-- V23: MOVW 511, 0 (high byte of a out of range). -/
theorem test_movw_V23 : seen (at_ [0x0002, 0x01FF, 0x0000] [(0, 1), (1, 2)] false false 0) =
    some ⟨[(0, 1), (1, 2)], false, false, 0, [], some ⟨.memFault, 0, 0x0002, 512⟩⟩ := by decide

/-- V34: PUSH R2 (SP=15: SP points at its own high byte). -/
theorem test_push_V34 : seen (at_ [0x0003, 0x0002] [(2, 1), (14, 15)] false false 0) =
    some ⟨[(2, 1), (14, 14), (15, 1)], false, false, 2, [], none⟩ := by decide

/-- V31: PUSH R2 (SP=0xFFFF). -/
theorem test_push_V31 : seen (at_ [0x0003, 0x0002] [(2, 171), (14, 255), (15, 255)] false false 0) =
    some ⟨[(2, 171), (14, 255), (15, 255)], false, false, 0, [], some ⟨.memFault, 0, 0x0003, 65535⟩⟩ := by decide

/-- V41: POP R3 (SP=13: incremented SP is SP_ADDR). -/
theorem test_pop_V41 : seen (at_ [0x0004, 0x0003] [(14, 13)] false false 0) =
    some ⟨[(3, 14), (14, 14)], false, false, 2, [], none⟩ := by decide

/-- V40: POP R3 (SP=511: incremented SP out of range). -/
theorem test_pop_V40 : seen (at_ [0x0004, 0x0003] [(14, 255), (15, 1)] false false 0) =
    some ⟨[(14, 255), (15, 1)], false, false, 0, [], some ⟨.memFault, 0, 0x0004, 512⟩⟩ := by decide

/-- V46: ADIW R14, 1 (one byte only: no carry into R15). -/
theorem test_adiw_V46 : seen (at_ [0x0005, 0x000E, 0x0001] [(14, 255), (15, 1)] false false 0) =
    some ⟨[(15, 1)], true, false, 3, [], none⟩ := by decide

/-- V50: ADD R1, R2. -/
theorem test_add_V50 : seen (at_ [0x0006, 0x0001, 0x0002] [(1, 127), (2, 1)] false false 0) =
    some ⟨[(1, 128), (2, 1)], false, true, 3, [], none⟩ := by decide

/-- V49: ADD R1, R1 (same register). -/
theorem test_add_V49 : seen (at_ [0x0006, 0x0001, 0x0001] [(1, 128)] false false 0) =
    some ⟨[], true, false, 3, [], none⟩ := by decide

/-- V52: SUBI R1, 1. -/
theorem test_subi_V52 : seen (at_ [0x0007, 0x0001, 0x0001] [] false false 0) =
    some ⟨[(1, 255)], false, true, 3, [], none⟩ := by decide

/-- V54: SUB R2, R3. -/
theorem test_sub_V54 : seen (at_ [0x0008, 0x0002, 0x0003] [(2, 5), (3, 7)] false false 0) =
    some ⟨[(2, 254), (3, 7)], false, true, 3, [], none⟩ := by decide

/-- V56: SUB R1, R2 (0x80-0x01). -/
theorem test_sub_V56 : seen (at_ [0x0008, 0x0001, 0x0002] [(1, 128), (2, 1)] false false 0) =
    some ⟨[(1, 127), (2, 1)], false, false, 3, [], none⟩ := by decide

/-- V59: MUL R1, R2 (255*255). -/
theorem test_mul_V59 : seen (at_ [0x0009, 0x0001, 0x0002] [(1, 255), (2, 255)] false false 0) =
    some ⟨[(1, 1), (2, 255)], false, false, 3, [], none⟩ := by decide

/-- V60: MUL R1, R1 (same register, 12*12). -/
theorem test_mul_V60 : seen (at_ [0x0009, 0x0001, 0x0001] [(1, 12)] false false 0) =
    some ⟨[(1, 144)], false, true, 3, [], none⟩ := by decide

/-- V63: INC R4 (127). -/
theorem test_inc_V63 : seen (at_ [0x000A, 0x0004] [(4, 127)] false false 0) =
    some ⟨[(4, 128)], false, true, 2, [], none⟩ := by decide

/-- V66: DEC R1 (0). -/
theorem test_dec_V66 : seen (at_ [0x000B, 0x0001] [] true false 0) =
    some ⟨[(1, 255)], false, true, 2, [], none⟩ := by decide

/-- V68: SWAP R5 (0xA5). -/
theorem test_swap_V68 : seen (at_ [0x000C, 0x0005] [(5, 165)] true true 0) =
    some ⟨[(5, 90)], true, true, 2, [], none⟩ := by decide

/-- V73: NEG R6 (0x80). -/
theorem test_neg_V73 : seen (at_ [0x000D, 0x0006] [(6, 128)] false false 0) =
    some ⟨[(6, 128)], false, true, 2, [], none⟩ := by decide

/-- V74: NEG R6 (0xFF). -/
theorem test_neg_V74 : seen (at_ [0x000D, 0x0006] [(6, 255)] false false 0) =
    some ⟨[(6, 1)], false, false, 2, [], none⟩ := by decide

/-- V75: ROR R8 (0x80, N=1). -/
theorem test_ror_V75 : seen (at_ [0x000E, 0x0008] [(8, 128)] false true 0) =
    some ⟨[(8, 192)], false, true, 2, [], none⟩ := by decide

/-- V78: ROR R8 (0x01, N=1). -/
theorem test_ror_V78 : seen (at_ [0x000E, 0x0008] [(8, 1)] false true 0) =
    some ⟨[(8, 128)], false, true, 2, [], none⟩ := by decide

/-- V84: ANDI R1, 0xFF (test only). -/
theorem test_andi_V84 : seen (at_ [0x000F, 0x0001, 0x00FF] [(1, 128)] false false 0) =
    some ⟨[(1, 128)], false, true, 3, [], none⟩ := by decide

/-- V85: ANDI R1, 0xFF00 (high bits ignored). -/
theorem test_andi_V85 : seen (at_ [0x000F, 0x0001, 0xFF00] [(1, 243)] false false 0) =
    some ⟨[], true, false, 3, [], none⟩ := by decide

/-- V86: AND R1, R2. -/
theorem test_and_V86 : seen (at_ [0x0010, 0x0001, 0x0002] [(1, 204), (2, 170)] false false 0) =
    some ⟨[(1, 136), (2, 170)], false, true, 3, [], none⟩ := by decide

/-- V88: ORI R1, 0x80. -/
theorem test_ori_V88 : seen (at_ [0x0011, 0x0001, 0x0080] [(1, 1)] false false 0) =
    some ⟨[(1, 129)], false, true, 3, [], none⟩ := by decide

/-- V92: OR R1, R2. -/
theorem test_or_V92 : seen (at_ [0x0012, 0x0001, 0x0002] [(1, 80), (2, 10)] false false 0) =
    some ⟨[(1, 90), (2, 10)], false, false, 3, [], none⟩ := by decide

/-- V93: EOR R1, R2. -/
theorem test_eor_V93 : seen (at_ [0x0013, 0x0001, 0x0002] [(1, 255), (2, 15)] false false 0) =
    some ⟨[(1, 240), (2, 15)], false, true, 3, [], none⟩ := by decide

/-- V94: EOR R1, R1 (same register: clear). -/
theorem test_eor_V94 : seen (at_ [0x0013, 0x0001, 0x0001] [(1, 195)] false true 0) =
    some ⟨[], true, false, 3, [], none⟩ := by decide

/-- V98: CPI R1, 200. -/
theorem test_cpi_V98 : seen (at_ [0x0014, 0x0001, 0x00C8] [(1, 100)] false false 0) =
    some ⟨[(1, 100)], false, true, 3, [], none⟩ := by decide

/-- V99: CPI R1, 0x0105 (imm above a byte). -/
theorem test_cpi_V99 : seen (at_ [0x0014, 0x0001, 0x0105] [(1, 5)] false false 0) =
    some ⟨[(1, 5)], true, false, 3, [], none⟩ := by decide

/-- V101: CP R1, R2. -/
theorem test_cp_V101 : seen (at_ [0x0015, 0x0001, 0x0002] [(1, 3), (2, 5)] false false 0) =
    some ⟨[(1, 3), (2, 5)], false, true, 3, [], none⟩ := by decide

/-- V104: CP R1, 16 (invalid). -/
theorem test_cp_V104 : seen (at_ [0x0015, 0x0001, 0x0010] [] false true 0) =
    some ⟨[], false, true, 3, [], none⟩ := by decide

/-- V115: JZ 9 (target = own index - 1: jumps to itself). -/
theorem test_jz_V115 : seen (at_ [0x0016, 0x0009] [] true false 10) =
    some ⟨[], true, false, 10, [], none⟩ := by decide

/-- V107: JE 30 (taken). -/
theorem test_je_V107 : seen (at_ [0x0017, 0x001E] [] true false 20) =
    some ⟨[], true, false, 31, [], none⟩ := by decide

/-- V108: JE 30 (not taken). -/
theorem test_je_V108 : seen (at_ [0x0017, 0x001E] [] false true 20) =
    some ⟨[], false, true, 22, [], none⟩ := by decide

/-- V114: JNE 65535 (run ends with pc=65536). -/
theorem test_jne_V114 : seen (at_ [0x0018, 0xFFFF] [] false false 5) =
    some ⟨[], false, false, 65536, [], none⟩ := by decide

/-- V110: JNE 2 (not taken). -/
theorem test_jne_V110 : seen (at_ [0x0018, 0x0002] [] true false 11) =
    some ⟨[], true, false, 13, [], none⟩ := by decide

/-- V119: BREAK in the last cell. -/
theorem test_break_V119 : seen (at_ [0x0019] [] false false 127) =
    some ⟨[], false, false, 129, [], none⟩ := by decide

/-- V121: NOP in the last cell (natural end). -/
theorem test_nop_V121 : seen (at_ [0x001A] [] false false 127) =
    some ⟨[], false, false, 128, [], none⟩ := by decide

/-- V122: OUT console, R8. -/
theorem test_out_V122 : seen (at_ [0x001B, 0x0010, 0x0008] [(8, 128)] false true 0) =
    some ⟨[(8, 128), (16, 128)], false, true, 3, [128], none⟩ := by decide

/-- V123: OUT exit, R8. -/
theorem test_out_V123 : seen (at_ [0x001B, 0x0011, 0x0008] [(8, 128)] false false 0) =
    some ⟨[(8, 128), (17, 128)], false, false, 129, [], none⟩ := by decide

/-- V133: IN R5, 16 (console cell: plain read). -/
theorem test_in_V133 : seen (at_ [0x001C, 0x0005, 0x0010] [(16, 65)] false false 0) =
    some ⟨[(5, 65), (16, 65)], false, false, 3, [], none⟩ := by decide

/-- V135: IN R5, 512 (address out of range). -/
theorem test_in_V135 : seen (at_ [0x001C, 0x0005, 0x0200] [] false false 0) =
    some ⟨[], false, false, 0, [], some ⟨.memFault, 0, 0x001C, 512⟩⟩ := by decide

/-- V140: unknown word 0x0100 (not LDI: all 16 bits count). -/
theorem test_unknown_V140 : seen (at_ [0x0100, 0x0001, 0x0005] [] false false 3) =
    some ⟨[], false, false, 4, [], none⟩ := by decide

/-- V142: BAD word in the last cell. -/
theorem test_bad_V142 : seen (at_ [0xFFFF] [] false false 127) =
    some ⟨[], false, false, 128, [], none⟩ := by decide

/-- V149: JZ 3 at index 127 (Z=0: the target is fetched even when not taken). -/
theorem test_fetch_fault_V149 : seen (at_ [0x0016, 0x0003] [] false false 127) =
    some ⟨[], false, false, 127, [], some ⟨.fetchFault, 127, 0x0016, 128⟩⟩ := by decide

/-- V140 with DIAG_LOG true: the diagnostic is logged (R185, R186). -/
theorem test_unknown_logged :
    (match step (at_ [0x0100] [] false false 3 |> fun s => { s with cfg := { s.cfg with diagLog := true } }) with
      | .next t => t.diag
      | _ => []) = [(3, 0x0100)] := by decide

/-- A faulted core takes no further step (R192). -/
theorem test_faulted_stops :
    (match step ((at_ [0x001A] [] false false 0).memFaulted 512) with
      | .fault f => some f
      | _ => none) = some (.faulted ⟨.memFault, 0, 0x001A, 512⟩) := by decide

/-- A core at `PROG_SIZE` is halted (R107, R108). -/
theorem test_halted_stops : (match step (State.reset.withPc 128) with
    | .fault f => some f
    | _ => none) = some .halted := by decide

/-! ### Reset and the loader -/

theorem test_reset_memory_wf : State.reset.mem.wf = true := by decide

/-- L2: the words of the image, then `BAD_WORD`, which is not listed. -/
theorem test_load_L2 : loadFrom Config.default 0 [0x000A, 0x0001, 0x0019] = [(0, 0x000A), (1, 0x0001), (2, 0x0019)] := by
  decide

/-- L3: the zero word and everything after it are dropped. -/
theorem test_load_L3 : loadFrom Config.default 0 [0x000A, 0x0001, 0x0019, 0x0000, 0x000A, 0x0002] =
    loadFrom Config.default 0 [0x000A, 0x0001, 0x0019] := by decide

/-- L4: an image that starts with LDI loads nothing. -/
theorem test_load_L4 : loadFrom Config.default 0 [0x0000, 0x0008, 0x0080] = [] := by decide

/-- L6 on a store of two words: what lies past the store is ignored. -/
theorem test_load_L6 : loadFrom { Config.default with progSize := 2 } 0 [0x001A, 0x001A, 0x001A] =
    [(0, 0x001A), (1, 0x001A)] := by decide

/-- A word of an instruction of the table is what the next step fetches (R223). -/
theorem test_withFetchWord : (State.reset.withFetchWord 48 0x008000080000).fetchWords = [0x0000, 0x0008, 0x0080] := by
  decide

/-- Writing 0 removes the entry; a later write is found. -/
theorem test_memory_canonical :
    (Memory.write (Memory.write [] 3 7) 3 0) = [] ∧ (Memory.write [(3, 7)] 1 9).read 1 = 9 := by
  decide

/-! ### Witnesses: for every statement with hypotheses, a state and operands that meet them, clause by clause -/

/-- The reset state with one instruction of the table at `pc`. -/
abbrev running (words : List Word) (pc : Nat) : State := at_ words [] false false pc

theorem witness_ByteAccessTouchesExactlyOneCell :
    State.reset.mem.wf = true ∧ 511 < State.reset.cfg.memSize := by decide

theorem witness_WordAccessIsLittleEndian :
    State.reset.mem.wf = true ∧ 510 + 1 < State.reset.cfg.memSize := by decide

theorem witness_OutOfRangeAccessNamesTheFirstCell :
    State.reset.cfg.memSize ≤ 512 ∧ 511 + 1 = State.reset.cfg.memSize := by decide

theorem witness_MemoryCanonicalFormIsKeptAndUnique :
    Memory.wf [(3, 7)] = true ∧ ∀ a, Memory.read [(3, 7)] a = Memory.read [(3, 7)] a := ⟨by decide, fun _ => rfl⟩

/-- Valid parameters, and the last index of the store. -/
theorem witness_ResetLeavesEverythingDefinite : Config.default.Valid ∧ 127 < Config.default.progSize := by decide

/-- Word 1 is copied (no zero up to it); word 2, behind a zero, is not. -/
theorem witness_LoaderCopiesUpToTheSentinel :
    2 < Config.default.progSize ∧ (∀ j, j ≤ 0 → [(0x000A : Word), 0x0000, 0x0019].getD j 0 ≠ 0) ∧
    ¬ (∀ j, j ≤ 2 → [(0x000A : Word), 0x0000, 0x0019].getD j 0 ≠ 0) :=
  ⟨by decide, fun j hj => by obtain rfl : j = 0 := by omega
                             decide, fun h => absurd (h 1 (by omega)) (by decide)⟩

theorem witness_ResetSatisfiesTheInvariant : Config.default.Valid := test_wf_default_valid

theorem witness_DecodeOfEncodeIsTheInstruction :
    Config.default.Valid ∧ (Instr.unknown 0xFFFE).wf Config.default = true ∧
    (Instr.out 0xFFFF 0xFFFF).wf Config.default = true := by decide

theorem witness_EncodeOfDecodeIsTheWords : decode Config.default [0x001A, 0x0007] = .ok (.nop, [0x0007]) := by decide

/-- An instruction that ends in the last cell of the store. -/
theorem witness_StepRunsTheDecodedInstruction :
    (running [0x0000, 0x0001, 0x0005] 125).Running ∧
    decode (running [0x0000, 0x0001, 0x0005] 125).cfg (running [0x0000, 0x0001, 0x0005] 125).fetchWords =
      .ok (.ldi 1 5, []) := by decide

theorem witness_StoredEncodingIsExecuted :
    (running [0x001A] 127).cfg.Valid ∧ (running [0x001A] 127).Running ∧
    Instr.nop.wf (running [0x001A] 127).cfg = true ∧ (running [0x001A] 127).Holds .nop :=
  ⟨by decide, by decide, by decide, fun k w h => by
    match k, h with
    | 0, h =>
      have h' : some (0x001A : Word) = some w := h
      obtain rfl : (0x001A : Word) = w := by simpa using h'
      decide
    | k + 1, h => simp [encode, Instr.operands] at h⟩

/-- The second operand would lie at `PROG_SIZE`. -/
theorem witness_OperandPastTheStoreTakesFetchFault :
    (running [0x0000, 0x0001] 126).cfg.Valid ∧ (running [0x0000, 0x0001] 126).Running ∧
    (running [0x0000, 0x0001] 126).progWord (running [0x0000, 0x0001] 126).pc =
      (running [0x0000, 0x0001] 126).cfg.opc.code .ldi ∧
    (running [0x0000, 0x0001] 126).cfg.progSize ≤
      (running [0x0000, 0x0001] 126).pc + Mnemonic.ldi.format.kinds.length := by decide

theorem witness_StepIsEnabledExactlyWhenRunning :
    State.reset.status = .running ∧
    (State.reset.memFaulted 512).fault = some ⟨.memFault, 0, 0xFFFF, 512⟩ ∧
    ((State.reset.withPc 128).fault = none ∧ (State.reset.withPc 128).cfg.progSize ≤ (State.reset.withPc 128).pc) := by
  decide

theorem witness_ProgramStoreIsImmutableAndOnlyFetched :
    step (running [0x001A] 127) = .next ((running [0x001A] 127).withPc 128) ∧
    (running [0x001A] 127).fault = none ∧
    exec .nop (running [0x001A] 127) = .next ((running [0x001A] 127).withPc 128) ∧
    ((running [0x001A] 127).withPc 128).fault = none := ⟨rfl, rfl, rfl, rfl⟩

/-- One instruction that takes no fault, one that takes one. -/
theorem witness_PcAfterEachInstruction :
    State.reset.cfg.Valid ∧ State.reset.fault = none ∧ exec .nop State.reset = .next (State.reset.withPc 1) ∧
    (State.reset.withPc 1).fault = none ∧
    exec (.out 512 1) State.reset = .next (State.reset.memFaulted 512) ∧ (State.reset.memFaulted 512).fault ≠ none :=
  ⟨by decide, rfl, rfl, rfl, rfl, by decide⟩

/-- The lowest address that faults and the highest that does not, for each of the five instructions. -/
theorem witness_MemFaultsAreExactlyTheListedOnes :
    State.reset.cfg.Valid ∧ State.reset.mem.wf = true ∧ State.reset.fault = none ∧
    (Instr.out 512 1).memFaultAt State.reset = some 512 ∧ (Instr.out 511 1).memFaultAt State.reset = none ∧
    (Instr.inp 1 512).memFaultAt State.reset = some 512 ∧ (Instr.inp 1 511).memFaultAt State.reset = none ∧
    (Instr.movw 511 0).memFaultAt State.reset = some 512 ∧ (Instr.movw 0 511).memFaultAt State.reset = some 512 ∧
    (Instr.movw 510 510).memFaultAt State.reset = none ∧ (Instr.movw 512 511).memFaultAt State.reset = none ∧
    (Instr.push 2).memFaultAt (at_ [] [(15, 2)] false false 0) = some 512 ∧
    (Instr.push 2).memFaultAt (at_ [] [(14, 255), (15, 1)] false false 0) = none ∧
    (Instr.pop 2).memFaultAt (at_ [] [(14, 255), (15, 1)] false false 0) = some 512 ∧
    (Instr.pop 2).memFaultAt (at_ [] [(14, 255), (15, 255)] false false 0) = none := by decide

theorem witness_FaultsArePrecise :
    (running [0x001B, 0x0200, 0x0001] 0).Running ∧
    step (running [0x001B, 0x0200, 0x0001] 0) = .next ((running [0x001B, 0x0200, 0x0001] 0).memFaulted 512) ∧
    ((running [0x001B, 0x0200, 0x0001] 0).memFaulted 512).fault = some ⟨.memFault, 0, 0x001B, 512⟩ :=
  ⟨by decide, rfl, rfl⟩

/-- A cell beside the stored ones, in a state where the instruction stores. -/
theorem witness_EveryInstructionWritesOnlyItsCells :
    State.reset.cfg.Valid ∧ (∃ t, exec (.movw 510 0) State.reset = .next t) ∧
    509 ∉ (Instr.movw 510 0).written State.reset ∧ 511 ∈ (Instr.movw 510 0).written State.reset :=
  ⟨by decide, ⟨_, rfl⟩, by decide, by decide⟩

theorem witness_FlagsWrittenOnlyByFlagAffectingInstructions :
    (∃ t, exec (.swap 1) State.reset = .next t) ∧ (Instr.swap 1).flagAffecting = false ∧
    (∃ t, exec (.add 15 16) State.reset = .next t) ∧ ∃ w ∈ (Instr.add 15 16).regOperands, 16 ≤ w.toNat :=
  ⟨⟨_, rfl⟩, rfl, ⟨_, rfl⟩, 16, by decide, by decide⟩

/-- Instructions that write the flags and that do not (an invalid register, a jump). -/
theorem witness_FlagsReadOnlyByRorAndJumps :
    (∃ t, exec (.jz 4) State.reset = .next t) ∧ (∀ a, Instr.jz 4 ≠ .ror a) ∧ (Instr.jz 4).writesFlags = false ∧
    (∃ t, exec (.ror 1) State.reset = .next t) ∧
    (∀ a, Instr.ror 1 ≠ .jz a ∧ Instr.ror 1 ≠ .je a ∧ Instr.ror 1 ≠ .jne a) ∧ (Instr.ror 15).writesFlags = true ∧
    (Instr.ror 16).writesFlags = false ∧ (Instr.swap 1).writesFlags = false :=
  ⟨⟨_, rfl⟩, by simp, rfl, ⟨_, rfl⟩, by simp, rfl, rfl, rfl⟩

/-- The two ports addressed by MOVW, IN, and by PUSH and POP through SP. -/
theorem witness_PortsActOnlyThroughOut :
    State.reset.cfg.Valid ∧ (∃ t, exec (.out 16 8) State.reset = .next t) ∧ State.reset.fault = none ∧
    (∃ t, exec (.movw 16 0) State.reset = .next t ∧ t.fault = none) ∧
    (∃ t, exec (.inp 1 17) State.reset = .next t ∧ t.fault = none) ∧
    (∃ t, exec (.push 1) (at_ [] [(14, 16)] false false 0) = .next t ∧ t.fault = none) ∧
    (∃ t, exec (.pop 1) (at_ [] [(14, 16)] false false 0) = .next t ∧ t.fault = none) :=
  ⟨by decide, ⟨_, rfl⟩, rfl, ⟨_, rfl, rfl⟩, ⟨_, rfl, rfl⟩, ⟨_, rfl, rfl⟩, ⟨_, rfl, rfl⟩⟩

theorem witness_DiagnosticOnlyForUnknownWords : ∃ t, exec .bad State.reset = .next t := ⟨_, rfl⟩

theorem witness_OutputsNeverInfluenceAStep : ∃ t, step (running [0x001B, 0x0010, 0x0008] 0) = .next t := ⟨_, rfl⟩

theorem witness_InvalidRegisterOperandMakesANoOp :
    16 ∈ (Instr.inp 16 512).regOperands ∧ 16 ≤ (16 : Word).toNat := by decide

theorem witness_RegistersAreTheFirstCells : State.reset.cfg.Valid ∧ (15 : Word).toNat < 16 := by decide

/-- The last valid register number and the first invalid one: the clauses of every statement about a register operand. -/
theorem witness_register_operands : (15 : Word).toNat < 16 ∧ 16 ≤ (16 : Word).toNat := by decide

theorem witness_LdiLoadsTheLowByteAndSetsFlags : (15 : Word).toNat < 16 ∧ 16 ≤ (16 : Word).toNat := by decide
theorem witness_MovCopiesARegister : (15 : Word).toNat < 16 ∧ 16 ≤ (16 : Word).toNat := by decide

/-- Every `EncodedAs`: an instruction that just fits, and one whose last operand does not. -/
theorem witness_EncodedAs :
    (running [0x0000, 0x0001, 0x0005] 125).cfg.Valid ∧ (running [0x0000, 0x0001, 0x0005] 125).Running ∧
    (running [0x0000, 0x0001, 0x0005] 125).progWord 125 = defaultOpcodes.ldi ∧
    125 + 2 < (running [0x0000, 0x0001, 0x0005] 125).cfg.progSize ∧
    (running [0x0000, 0x0001] 126).progWord 126 = defaultOpcodes.ldi ∧
    (running [0x0000, 0x0001] 126).cfg.progSize ≤ 126 + 2 := by decide

theorem witness_MovwCopiesAWord :
    (510 : Word).toNat + 1 < State.reset.cfg.memSize ∧ State.reset.cfg.memSize ≤ (512 : Word).toNat ∧
    (511 : Word).toNat < State.reset.cfg.memSize ∧ (511 : Word).toNat + 1 = State.reset.cfg.memSize := by decide

/-- SP at the last cell, SP at `MEM_SIZE`, and an SP beside its own cells. -/
theorem witness_PushStoresThenDecrements :
    (at_ [] [(14, 255), (15, 1)] false false 0).cfg.Valid ∧ (15 : Word).toNat < 16 ∧
    (at_ [] [(14, 255), (15, 1)] false false 0).sp.toNat < (at_ [] [(14, 255), (15, 1)] false false 0).cfg.memSize ∧
    (at_ [] [(15, 2)] false false 0).cfg.memSize ≤ (at_ [] [(15, 2)] false false 0).sp.toNat ∧
    16 ≤ (16 : Word).toNat ∧
    (at_ [] [(14, 13)] false false 0).mem.wf = true ∧
    (at_ [] [(14, 13)] false false 0).sp.toNat ≠ (at_ [] [(14, 13)] false false 0).cfg.spAddr ∧
    (at_ [] [(14, 13)] false false 0).sp.toNat ≠ (at_ [] [(14, 13)] false false 0).cfg.spAddr + 1 := by decide

/-- SP 510 and SP 0xFFFF (which wraps to 0) are in range after the increment, SP 511 is not. -/
theorem witness_PopIncrementsThenLoads :
    (at_ [] [(14, 254), (15, 1)] false false 0).cfg.Valid ∧ (at_ [] [(14, 254), (15, 1)] false false 0).mem.wf = true ∧
    ((at_ [] [(14, 254), (15, 1)] false false 0).sp.toNat + 1) % 65536 < State.reset.cfg.memSize ∧
    ((at_ [] [(14, 255), (15, 255)] false false 0).sp.toNat + 1) % 65536 < State.reset.cfg.memSize ∧
    State.reset.cfg.memSize ≤ ((at_ [] [(14, 255), (15, 1)] false false 0).sp.toNat + 1) % 65536 := by decide

theorem witness_PushThenPopRestores :
    (at_ [] [(14, 255), (15, 1)] false false 0).cfg.Valid ∧ (at_ [] [(14, 255), (15, 1)] false false 0).mem.wf = true ∧
    (15 : Word).toNat < 16 ∧
    (at_ [] [(14, 255), (15, 1)] false false 0).sp.toNat < (at_ [] [(14, 255), (15, 1)] false false 0).cfg.memSize ∧
    (at_ [] [(14, 255), (15, 1)] false false 0).sp.toNat ≠ 14 ∧
    (at_ [] [(14, 255), (15, 1)] false false 0).sp.toNat ≠ 14 + 1 := by decide

theorem witness_RegisterArithmeticWrapsAndSetsFlags : (15 : Word).toNat < 16 ∧ 16 ≤ (16 : Word).toNat := by decide
theorem witness_ImmediateArithmeticWrapsAndSetsFlags : (15 : Word).toNat < 16 ∧ 16 ≤ (16 : Word).toNat := by decide
theorem witness_IncDecNegWrapAndSetFlags : (15 : Word).toNat < 16 ∧ 16 ≤ (16 : Word).toNat := by decide

theorem witness_SwapExchangesNibblesWithoutFlags :
    (15 : Word).toNat < 16 ∧ 16 ≤ (16 : Word).toNat ∧ State.reset.mem.wf = true := by decide

theorem witness_RorFillsFromNegative :
    (15 : Word).toNat < 16 ∧ 16 ≤ (16 : Word).toNat ∧ ∃ t, exec (.ror 15) State.reset = .next t :=
  ⟨by decide, by decide, _, rfl⟩

theorem witness_RegisterLogicIsBitwiseAndSetsFlags : (15 : Word).toNat < 16 ∧ 16 ≤ (16 : Word).toNat := by decide
theorem witness_ImmediateLogicIsBitwiseAndSetsFlags : (15 : Word).toNat < 16 ∧ 16 ≤ (16 : Word).toNat := by decide
theorem witness_ComparesWriteOnlyTheFlags : (15 : Word).toNat < 16 ∧ 16 ≤ (16 : Word).toNat := by decide

theorem witness_JzAndJneJumpOnZero :
    (at_ [] [] true false 0).z = true ∧ (at_ [] [] false false 0).z = false := by decide

/-- What the statement on taken jumps assumes, as one decidable property. -/
abbrev takenJump (s : State) (m : Mnemonic) : Prop :=
  s.cfg.Valid ∧ s.Running ∧ s.pc + 1 < s.cfg.progSize ∧ s.progWord s.pc = s.cfg.opc.code m ∧
  ((m = .jz ∨ m = .je) ∧ s.z = true ∨ m = .jne ∧ s.z = false)

/-- The jump to itself for each of the three (V115 is the first), then target + 1 = `PROG_SIZE` (V113 is the first). -/
theorem witness_JumpToItselfRepeatsAndJumpOutEnds :
    takenJump (at_ [0x0016, 0x0009] [] true false 10) .jz ∧ takenJump (at_ [0x0017, 0x0009] [] true false 10) .je ∧
    takenJump (at_ [0x0018, 0x0009] [] false false 10) .jne ∧
    ((at_ [0x0016, 0x0009] [] true false 10).progWord 11).toNat + 1 = 10 ∧
    takenJump (at_ [0x0016, 0x007F] [] true false 5) .jz ∧ takenJump (at_ [0x0017, 0x007F] [] true false 5) .je ∧
    takenJump (at_ [0x0018, 0x007F] [] false false 5) .jne ∧
    (at_ [0x0016, 0x007F] [] true false 5).cfg.progSize ≤
      ((at_ [0x0016, 0x007F] [] true false 5).progWord 6).toNat + 1 :=
  ⟨by decide, by decide, by decide, by decide, by decide, by decide, by decide, by decide⟩

theorem witness_BreakHaltsAndNopAdvances : State.reset.fault = none := rfl

/-- The last address, the first that does not exist, and the two ports. -/
theorem witness_OutStoresThenActsOnPorts :
    State.reset.cfg.Valid ∧ (15 : Word).toNat < 16 ∧ (511 : Word).toNat < State.reset.cfg.memSize ∧
    (16 : Word).toNat = State.reset.cfg.portConsole ∧ (17 : Word).toNat = State.reset.cfg.portExit ∧
    State.reset.cfg.memSize ≤ (512 : Word).toNat ∧ 16 ≤ (16 : Word).toNat := by decide

theorem witness_InLoadsAnyCell :
    (15 : Word).toNat < 16 ∧ (511 : Word).toNat < State.reset.cfg.memSize ∧
    State.reset.cfg.memSize ≤ (512 : Word).toNat ∧ 16 ≤ (16 : Word).toNat := by decide

theorem reset_word_is_no_opcode (m : Mnemonic) (k : Nat) : State.reset.progWord k ≠ State.reset.cfg.opc.code m := by
  change (0xFFFF : Word) ≠ _
  cases m <;> decide

theorem witness_UnknownWordsOnlyAdvance :
    State.reset.Running ∧ ∀ m, State.reset.progWord State.reset.pc ≠ State.reset.cfg.opc.code m :=
  ⟨by decide, fun m => reset_word_is_no_opcode m _⟩

theorem witness_UnloadedCellsRunOffTheEnd :
    State.reset.Running ∧
    ∀ k m, State.reset.pc ≤ k → k < State.reset.cfg.progSize → State.reset.progWord k ≠ State.reset.cfg.opc.code m :=
  ⟨by decide, fun k m _ _ => reset_word_is_no_opcode m k⟩

/-- The invariant holds of a running state with cells, flags and a program. -/
theorem some_state_meets_the_invariant : (at_ [0x0003, 0x0002] [(2, 171), (14, 255), (15, 1)] true false 5).Inv where
  valid := by decide
  memWf := by decide
  memRange := by decide
  progWf := by decide
  progRange := by decide
  pcBound := by decide
  diagOff := fun _ => rfl
  faultPrecise := fun _ h => by cases h

theorem witness_StepKeepsTheInvariant :
    (at_ [0x0003, 0x0002] [(2, 171), (14, 255), (15, 1)] true false 5).Inv ∧
    ∃ t, step (at_ [0x0003, 0x0002] [(2, 171), (14, 255), (15, 1)] true false 5) = .next t :=
  ⟨some_state_meets_the_invariant, _, rfl⟩

theorem witness_RunsStopOnlyHaltedOrFaulted :
    (at_ [0x0003, 0x0002] [(2, 171), (14, 255), (15, 1)] true false 5).Inv := some_state_meets_the_invariant

end Sys2Proof.Tests
end

/-! PROOFS. The program store (spec/10_state.md R29): a step leaves it and the parameters as they are, and no
instruction's body reads it, so replacing the store commutes with every instruction that takes no fault. The fault
record is the one place where an instruction's result shows the store: it holds the fetched word (R191). -/

namespace Sys2Proof.Machine

variable {s t : State}

/-! ### A step writes neither the store nor the parameters -/

theorem exec_prog_cfg {i : Instr} (h : exec i s = .next t) : t.prog = s.prog ∧ t.cfg = s.cfg := by
  obtain ⟨u, hu, rfl⟩ | ⟨r, -, rfl⟩ := exec_cases h
  · obtain ⟨v, hv, hcfg, hprog, -⟩ | ⟨y, -, hy⟩ := body_cases i (s.withPc (s.pc + i.operands.length))
    · cases hu.symm.trans hv
      exact ⟨hprog, hcfg⟩
    · cases hu.symm.trans hy
  · exact ⟨rfl, rfl⟩

theorem step_prog_cfg (h : step s = .next t) : t.prog = s.prog ∧ t.cfg = s.cfg := by
  obtain ⟨-, ⟨i, rest, -, hi⟩ | ⟨e, -, rfl⟩⟩ := step_cases h
  · exact exec_prog_cfg hi
  · exact ⟨rfl, rfl⟩

/-! ### No body reads the store -/

/-- Replacing the program store is an update beside the memory. -/
theorem aside_withProg (p : ProgStore) : Aside (·.withProg p) where
  mem _ := rfl
  memSize _ := rfl
  spAddr _ := rfl
  withMem _ _ := rfl

variable (s) (p : ProgStore)

theorem logDiag_withProg (i : Nat) (w : Word) : (s.withProg p).logDiag i w = (s.logDiag i w).withProg p := by
  symm
  exact apply_ite (State.withProg · p) _ _ _

/-- Field by field: the port decoder's result is the same in every field but the store. -/
theorem portEffect_withProg (a : Nat) (v : Byte) :
    (s.withProg p).portEffect a v = (s.portEffect a v).withProg p := by
  ext : 1 <;> simp <;> rfl

theorem outBody_withProg (a b : Word) : outBody a b (s.withProg p) = (outBody a b s).map (·.withProg p) := by
  simp only [outBody, (aside_withProg p).writeByte, State.withProg_reg]
  split
  · cases s.writeByte (addrOf a) (s.reg (regNo b)) with
    | error => rfl
    | ok u => exact congrArg Except.ok (portEffect_withProg u p _ _)
  · rfl

/-- A body does the same with another store: what it answers differs in the store alone. The bodies without an arm of
their own here are one conditional update of registers, flags or `pc`. -/
theorem body_withProg (i : Instr) : body i (s.withProg p) = (body i s).map (·.withProg p) := by
  cases i with
  | movw a b => exact (aside_withProg p).movwBody s a b
  | push a => exact (aside_withProg p).pushBody s a
  | pop a => exact (aside_withProg p).popBody s a
  | out a b => exact outBody_withProg s p a b
  | inp a b => exact (aside_withProg p).inBody s a b
  | bad => exact congrArg Except.ok (logDiag_withProg s p _ _)
  | unknown w => exact congrArg Except.ok (logDiag_withProg s p _ _)
  | brk => rfl
  | nop => rfl
  | _ =>
    symm
    exact congrArg Except.ok (apply_ite (State.withProg · p) _ _ _)

variable {s}

/-- An instruction that takes no fault does the same with another store. -/
theorem exec_withProg {i : Instr} (h : exec i s = .next t) (ht : t.fault = none) :
    exec i (s.withProg p) = .next (t.withProg p) := by
  obtain ⟨u, hu, rfl⟩ | ⟨r, -, rfl⟩ := exec_cases h
  · have hbody : body i ((s.withProg p).withPc (s.pc + i.operands.length)) = .ok (u.withProg p) := by
      change body i ((s.withPc _).withProg p) = _
      rw [body_withProg, hu]
      rfl
    rw [exec_eq_execute]
    exact State.execute_ok hbody
  · cases ht

/-- Settles O15: by the frame of every body for the first half, and because replacing the store commutes with every
body for the second. -/
theorem programStoreIsImmutableAndOnlyFetched : Obligations.ProgramStoreIsImmutableAndOnlyFetched :=
  ⟨fun _ _ h => step_prog_cfg h, fun _ _ _ p _ h ht => exec_withProg p h ht⟩

end Sys2Proof.Machine

/-! PROOFS. The memory primitives (spec/20_memory.md R52, R53, R55): an access in range completes and touches the cells
it names. The ports (R61): what a body appends to the console, and the instructions whose bodies write memory alone. -/

namespace Sys2Proof.Machine

variable {s t u : State}

/-! ### The primitives in range -/

/-- Settles O1: the byte primitives complete in range, and a write is read back at its own cell alone. -/
theorem byteAccessTouchesExactlyOneCell : Obligations.ByteAccessTouchesExactlyOneCell :=
  fun _ a v hm ha =>
    ⟨State.readByte_ok ha, _, State.writeByte_ok ha v, Memory.read_write_self hm a v,
      fun _ hb => Memory.read_write_ne v hb, rfl⟩

/-- Settles O2: the low byte survives the write of its neighbour, and the two bytes are the word again. -/
theorem wordAccessIsLittleEndian : Obligations.WordAccessIsLittleEndian := by
  intro s a v hm ha
  refine ⟨(State.readWord_ok ha).trans (congrArg Except.ok (State.wordAt_eq_ofNat a)),
    _, State.writeWord_ok ha v, ?low, ?high, ?others, rfl, ?back⟩
  case low =>
    rw [State.withMem_mem, Memory.read_write_ne _ (by omega), Memory.read_write_self hm, State.low_toNat]
  case high =>
    rw [State.withMem_mem, Memory.read_write_self (Memory.write_wf hm _ _), State.high_toNat]
  case others =>
    intro b hlow hhigh
    rw [State.withMem_mem, Memory.read_write_ne _ hhigh, Memory.read_write_ne _ hlow]
  case back =>
    rw [State.readWord_ok, State.wordAt_write hm]
    exact ha

/-! ### The instructions whose bodies write memory alone -/

/-- When the body of `i` completes, it has changed nothing but memory. -/
def WritesMemoryOnly (i : Instr) : Prop :=
  ∀ s u, body i s = .ok u → u = s.withMem u.mem

theorem writesMemoryOnly_movw (a b : Word) : WritesMemoryOnly (.movw a b) := by
  intro s u hu
  obtain ⟨_, _, -, -, -, h⟩ | h | ⟨_, -, h⟩ := movwBody_cases a b s <;> cases hu.symm.trans h <;> rfl

theorem writesMemoryOnly_push (a : Word) : WritesMemoryOnly (.push a) := by
  intro s u hu
  obtain ⟨_, _, _, -, -, -, h⟩ | h | ⟨_, -, h⟩ := pushBody_cases a s <;> cases hu.symm.trans h <;> rfl

theorem writesMemoryOnly_pop (a : Word) : WritesMemoryOnly (.pop a) := by
  intro s u hu
  obtain ⟨_, _, _, -, -, h⟩ | h | ⟨_, -, h⟩ := popBody_cases a s <;> cases hu.symm.trans h <;> rfl

theorem writesMemoryOnly_inp (a b : Word) : WritesMemoryOnly (.inp a b) := by
  intro s u hu
  obtain ha | ha := Nat.lt_or_ge a.toNat 16
  · obtain hb | hb := Nat.lt_or_ge b.toNat s.cfg.memSize
    · cases hu.symm.trans (inBody_ok ha hb)
      rfl
    · cases hu.symm.trans (inBody_error ha hb)
  · cases hu.symm.trans (inBody_noop ha)
    rfl

/-- Such an instruction, unless it faults, moves `pc` past its words and otherwise changes memory alone. -/
theorem WritesMemoryOnly.exec_eq {i : Instr} (hi : WritesMemoryOnly i) (h : exec i s = .next t) (ht : t.fault = none) :
    t = (s.withMem t.mem).withPc (s.pc + i.operands.length + 1) := by
  obtain ⟨u, hu, rfl⟩ | ⟨r, -, rfl⟩ := exec_cases h
  · rw [hi _ u hu]
    rfl
  · cases ht

/-! ### What an instruction appends to the console -/

theorem emits_withPc (i : Instr) (s : State) (p : Nat) : i.emits (s.withPc p) = i.emits s := by
  cases i <;> rfl

theorem WritesMemoryOnly.body_console {i : Instr} (hi : WritesMemoryOnly i) (h : body i s = .ok u) :
    u.console = s.console := by
  rw [hi s u h]
  rfl

/-- An `OUT` that completes emits by its port effect; an invalid register makes both sides empty. -/
theorem outBody_console {a b : Word} (h : outBody a b s = .ok u) :
    u.console = s.console ++ (Instr.out a b).emits s := by
  obtain hb | hb := Nat.lt_or_ge b.toNat 16
  · obtain ha | ha := Nat.lt_or_ge a.toNat s.cfg.memSize
    · cases h.symm.trans (outBody_ok hb ha)
      by_cases hport : a.toNat = s.cfg.portConsole <;> simp [Instr.emits, hb, hport]
    · cases h.symm.trans (outBody_error hb ha)
  · cases h.symm.trans (outBody_noop hb)
    simp [Instr.emits, Nat.not_lt.2 hb]

/-- A body that completes has appended what its instruction emits. The bodies without an arm of their own here are one
conditional update of registers, flags or `pc`. -/
theorem body_console {i : Instr} (h : body i s = .ok u) : u.console = s.console ++ i.emits s := by
  cases i with
  | out a b => exact outBody_console h
  | movw a b => simpa [Instr.emits] using (writesMemoryOnly_movw a b).body_console h
  | push a => simpa [Instr.emits] using (writesMemoryOnly_push a).body_console h
  | pop a => simpa [Instr.emits] using (writesMemoryOnly_pop a).body_console h
  | inp a b => simpa [Instr.emits] using (writesMemoryOnly_inp a b).body_console h
  | bad | unknown | brk | nop =>
    cases h
    simp [Instr.emits]
  | _ =>
    obtain rfl := Except.ok.inj h
    simp only [Instr.emits, List.append_nil]
    split <;> rfl

/-- A body that raises is no `OUT` to the console port: that port is an address in range (spec/00_scope.md R5). -/
theorem emits_of_body_error {i : Instr} {r : Raise} (h : body i s = .error r) (hc : s.cfg.Valid) : i.emits s = [] := by
  cases i with
  | out a b =>
    obtain ⟨-, -, -, ⟨-, hport⟩, -⟩ := hc
    refine if_neg ?_
    rintro ⟨hb, ha⟩
    cases h.symm.trans (outBody_ok hb (ha ▸ hport))
  | _ => rfl

theorem exec_console {i : Instr} (hc : s.cfg.Valid) (h : exec i s = .next t) :
    t.console = s.console ++ i.emits s := by
  obtain ⟨u, hu, rfl⟩ | ⟨r, hr, rfl⟩ := exec_cases h
  · exact (body_console hu).trans (congrArg (s.console ++ ·) (emits_withPc i s _))
  · have hnone : i.emits s = [] := (emits_withPc i s _).symm.trans (emits_of_body_error hr hc)
    rw [hnone, List.append_nil]
    rfl

theorem WritesMemoryOnly.exec_console_pc {i : Instr} (hi : WritesMemoryOnly i) (h : exec i s = .next t)
    (ht : t.fault = none) : t.console = s.console ∧ t.pc = s.pc + i.operands.length + 1 := by
  rw [hi.exec_eq h ht]
  exact ⟨rfl, rfl⟩

/-- Settles O22: every body appends what its instruction emits, and the four other memory instructions write memory
alone. -/
theorem portsActOnlyThroughOut : Obligations.PortsActOnlyThroughOut := by
  refine ⟨fun _ _ _ hc h => exec_console hc h, fun s t a b _ _ ht => ⟨?_, ?_⟩⟩
  · rintro (h | h)
    · exact (writesMemoryOnly_movw a b).exec_console_pc h ht
    · exact (writesMemoryOnly_inp a b).exec_console_pc h ht
  · rintro (h | h)
    · exact (writesMemoryOnly_push a).exec_console_pc h ht
    · exact (writesMemoryOnly_pop a).exec_console_pc h ht

end Sys2Proof.Machine

/-! PROOFS. Data movement (spec/41_data_movement.md R120, R121). First the encoding and fetch clause that every
instruction rule shares: the words of the store a step fetches, and the decoder on them (R80, R101 to R103). -/

namespace Sys2Proof.Machine

/-! ### The encoding clause, for any instruction with a mnemonic -/

section
variable {s : State}

/-- As many words are fetched as the store still has. -/
theorem State.wordsFrom_length (k i : Nat) : (s.wordsFrom k i).length = min k (s.cfg.progSize - i) := by
  induction k generalizing i with
  | zero => simp [State.wordsFrom]
  | succ k ih =>
    unfold State.wordsFrom
    split
    · rw [List.length_cons, ih]
      omega
    · rw [List.length_nil]
      omega

/-- The first `k` of the two operand words are fetched when they lie in the store. -/
theorem State.take_prefix_wordsFrom_two {k i : Nat} (h : i + k ≤ s.cfg.progSize) :
    [s.progWord i, s.progWord (i + 1)].take k <+: s.wordsFrom 2 i := by
  match k with
  | 0 => exact List.nil_prefix
  | 1 =>
    have hi : i < s.cfg.progSize := h
    exact ⟨s.wordsFrom 1 (i + 1), by simp [State.wordsFrom, hi]⟩
  | k + 2 =>
    rw [State.wordsFrom_two_full (by omega)]
    exact List.take_prefix _ _

/-- At an opcode word the decoder goes on to its operands. -/
theorem decode_fetchWords {m : Mnemonic} (hc : s.cfg.Valid) (h : s.pc < s.cfg.progSize)
    (hm : s.progWord s.pc = s.cfg.opc.code m) :
    decode s.cfg s.fetchWords = m.pending.take (s.wordsFrom 2 (s.pc + 1)) := by
  rw [State.fetchWords_running h, hm, decode_opcode hc]

/-- At an opcode word whose operands do not all lie in the store, the index reported is `PROG_SIZE` (R103, D14). -/
theorem step_operands_missing {m : Mnemonic} (hc : s.cfg.Valid) (hr : s.Running)
    (hm : s.progWord s.pc = s.cfg.opc.code m) (h : s.cfg.progSize ≤ s.pc + m.pending.count) :
    step s = .next (s.fetchFaulted (s.cfg.opc.code m)) := by
  have hpc := hr.2
  have hcount : m.pending.count ≤ 2 := by cases m <;> decide
  have hlen : (s.wordsFrom 2 (s.pc + 1)).length = s.cfg.progSize - (s.pc + 1) := by
    rw [State.wordsFrom_length]
    omega
  have hd := (decode_fetchWords hc hpc hm).trans (Pending.take_short (by omega))
  have hindex : s.pc + (DecodeError.operandMissing (s.cfg.progSize - (s.pc + 1) + 1)).offset = s.cfg.progSize := by
    simp only [DecodeError.offset]
    omega
  rw [step_of_decode_error hr hd, hlen, hindex, ← hm]
  rfl

end

/-- The encoding clause of any instruction rule, from the table's number and the form of its instruction. -/
theorem encodedAs_of_mnemonic {m : Mnemonic} {num k : Nat} {mk : Word → Word → Instr}
    (hnum : Config.default.opc.code m = BitVec.ofNat 16 num) (hcount : m.pending.count = k)
    (hmk : ∀ a b, (mk a b).mnemonic = some m) (hops : ∀ a b, (mk a b).operands = [a, b].take k) :
    EncodedAs m num k mk := by
  refine ⟨hnum, fun s hc hr hm => ⟨fun hfits => ?_, fun hends => ?_⟩⟩
  · obtain ⟨rest, hrest⟩ : _ <+: s.wordsFrom 2 (s.pc + 1) := State.take_prefix_wordsFrom_two (k := k) (by omega)
    refine step_of_decode hr (rest := rest) ?_
    rw [decode_fetchWords hc hr.2 hm, ← hrest, ← hops]
    exact Mnemonic.pending_take (hmk _ _) rest
  · exact step_operands_missing hc hr hm (hcount ▸ hends)

/-! ### LDI and MOV -/

/-- Settles O27: the byte loaded is the residue of the immediate, and write-back sets both flags from it. -/
theorem ldiLoadsTheLowByteAndSetsFlags : Obligations.LdiLoadsTheLowByteAndSetsFlags := by
  refine ⟨encodedAs_of_mnemonic rfl rfl (fun _ _ => rfl) (fun _ _ => rfl),
    fun s a b => ⟨fun ha => ?_, fun ha => ?_⟩⟩
  · have hbyte : ((imm8 b).toNat : Int) = immInt b % 256 := by
      rw [imm8_toNat, immInt]
      omega
    rw [exec_ldi, State.aluRI_valid ha, State.writeResult_eq 3 hbyte]
  · exact (exec_ldi s a b).trans (State.aluRI_invalid ha _)

/-- Settles O28: the body writes the one cell, or nothing when an operand is no register. -/
theorem movCopiesARegister : Obligations.MovCopiesARegister := by
  refine ⟨encodedAs_of_mnemonic rfl rfl (fun _ _ => rfl) (fun _ _ => rfl),
    fun s a b => ⟨fun ha hb => ?_, fun h => ?_⟩⟩
  · exact (exec_eq_execute s _).trans (State.execute_ok (movBody_valid ha hb))
  · exact (exec_eq_execute s _).trans (State.execute_ok (movBody_invalid h))

end Sys2Proof.Machine

/-! PROOFS. Arithmetic (spec/42_arithmetic.md R140 to R151): byte results as residues of exact integers, the three ALU
shapes over them, and SWAP, whose second application writes back the byte the first one read. -/

namespace Sys2Proof.Machine

/-! ### Byte results as residues of exact integers (R140) -/

section
variable (x y : Byte)

theorem byte_add_residue : ((x + y).toNat : Int) = ((x.toNat : Int) + y.toNat) % 256 := by
  rw [BitVec.toNat_add]
  omega

theorem byte_sub_residue : ((x - y).toNat : Int) = ((x.toNat : Int) - y.toNat) % 256 := by
  have hy := y.isLt
  rw [BitVec.toNat_sub]
  omega

theorem byte_mul_residue : ((x * y).toNat : Int) = ((x.toNat : Int) * y.toNat) % 256 := by
  rw [BitVec.toNat_mul]
  norm_cast

end

theorem imm8_toInt (w : Word) : ((imm8 w).toNat : Int) = immInt w :=
  congrArg Nat.cast (imm8_toNat w)

/-! ### The ALU shapes, for a result that is the residue of `v` (R142) -/

namespace State

variable {s : State} {a b : Word} {v : Int}

theorem aluR_withResult {f : Bool → Byte → Byte} (ha : a.toNat < 16)
    (h : ((f s.n (s.reg (regNo a))).toNat : Int) = v % 256) : s.aluR a f = .next (s.withResult a v 2) := by
  rw [aluR_valid ha, writeResult_eq 2 h]

theorem aluRR_withResult {f : Byte → Byte → Byte} (ha : a.toNat < 16) (hb : b.toNat < 16)
    (h : ((f (s.reg (regNo a)) (s.reg (regNo b))).toNat : Int) = v % 256) :
    s.aluRR a b f = .next (s.withResult a v 3) := by
  rw [aluRR_valid ha hb, writeResult_eq 3 h]

theorem aluRI_withResult {f : Byte → Byte → Byte} (ha : a.toNat < 16)
    (h : ((f (s.reg (regNo a)) (imm8 b)).toNat : Int) = v % 256) :
    s.aluRI a b f = .next (s.withResult a v 3) := by
  rw [aluRI_valid ha, writeResult_eq 3 h]

end State

/-! ### ADD, SUB, MUL -/

/-- Settles O33: each byte result is the residue of the exact one, which write-back and the flags take. -/
theorem registerArithmeticWrapsAndSetsFlags : Obligations.RegisterArithmeticWrapsAndSetsFlags := by
  refine ⟨encodedAs_of_mnemonic rfl rfl (fun _ _ => rfl) (fun _ _ => rfl),
    encodedAs_of_mnemonic rfl rfl (fun _ _ => rfl) (fun _ _ => rfl),
    encodedAs_of_mnemonic rfl rfl (fun _ _ => rfl) (fun _ _ => rfl),
    fun s a b => ⟨fun ha hb => ⟨?add, ?sub, ?mul⟩, fun h => ?noop⟩⟩
  case add => exact (exec_add s a b).trans (State.aluRR_withResult ha hb (byte_add_residue _ _))
  case sub => exact (exec_sub s a b).trans (State.aluRR_withResult ha hb (byte_sub_residue _ _))
  case mul => exact (exec_mul s a b).trans (State.aluRR_withResult ha hb (byte_mul_residue _ _))
  case noop =>
    exact ⟨(exec_add s a b).trans (State.aluRR_invalid h _), (exec_sub s a b).trans (State.aluRR_invalid h _),
      (exec_mul s a b).trans (State.aluRR_invalid h _)⟩

/-! ### ADIW, SUBI -/

/-- Settles O34: as for two registers, with the immediate's low byte as the second operand. -/
theorem immediateArithmeticWrapsAndSetsFlags : Obligations.ImmediateArithmeticWrapsAndSetsFlags := by
  refine ⟨encodedAs_of_mnemonic rfl rfl (fun _ _ => rfl) (fun _ _ => rfl),
    encodedAs_of_mnemonic rfl rfl (fun _ _ => rfl) (fun _ _ => rfl),
    fun s a b => ⟨fun ha => ⟨?adiw, ?subi⟩, fun ha => ?noop⟩⟩
  case adiw =>
    rw [exec_adiw, ← imm8_toInt]
    exact State.aluRI_withResult ha (byte_add_residue _ _)
  case subi =>
    rw [exec_subi, ← imm8_toInt]
    exact State.aluRI_withResult ha (byte_sub_residue _ _)
  case noop =>
    exact ⟨(exec_adiw s a b).trans (State.aluRI_invalid ha _), (exec_subi s a b).trans (State.aluRI_invalid ha _)⟩

/-! ### INC, DEC, NEG -/

/-- Settles O35: INC and DEC add and subtract the byte 1, NEG subtracts from the byte 0. -/
theorem incDecNegWrapAndSetFlags : Obligations.IncDecNegWrapAndSetFlags := by
  refine ⟨encodedAs_of_mnemonic rfl rfl (fun _ _ => rfl) (fun _ _ => rfl),
    encodedAs_of_mnemonic rfl rfl (fun _ _ => rfl) (fun _ _ => rfl),
    encodedAs_of_mnemonic rfl rfl (fun _ _ => rfl) (fun _ _ => rfl),
    fun s a => ⟨fun ha => ⟨?inc, ?dec, ?neg⟩, fun ha => ?noop⟩⟩
  case inc => exact (exec_inc s a).trans (State.aluR_withResult ha (byte_add_residue _ 1))
  case dec => exact (exec_dec s a).trans (State.aluR_withResult ha (byte_sub_residue _ 1))
  case neg => exact (exec_neg s a).trans (State.aluR_withResult ha (byte_sub_residue 0 _))
  case noop =>
    exact ⟨(exec_inc s a).trans (State.aluR_invalid ha _), (exec_dec s a).trans (State.aluR_invalid ha _),
      (exec_neg s a).trans (State.aluR_invalid ha _)⟩

/-! ### SWAP -/

/-- Of two writes to one cell the second stands. -/
theorem Memory.write_write_self {m : Memory} (hm : m.wf = true) (c : Nat) (v w : Byte) :
    (m.write c v).write c w = m.write c w := by
  have hv := Memory.write_wf hm c v
  refine Cells.ext_of_get (Memory.write_wf hv c w) (Memory.write_wf hm c w) fun d => ?_
  change ((m.write c v).write c w).read d = (m.write c w).read d
  obtain rfl | hne := eq_or_ne d c
  · rw [Memory.read_write_self hv, Memory.read_write_self hm]
  · rw [Memory.read_write_ne w hne, Memory.read_write_ne v hne, Memory.read_write_ne w hne]

section
variable {s : State} {a : Word}

theorem exec_swap_valid (ha : a.toNat < 16) : exec (.swap a) s =
    .next ((s.withMem (s.mem.write a.toNat (swapNibbles (s.mem.read a.toNat)))).withPc (s.pc + 2)) :=
  (exec_eq_execute s _).trans (State.execute_ok (swapBody_valid ha))

theorem exec_swap_invalid (ha : 16 ≤ a.toNat) : exec (.swap a) s = .next (s.withPc (s.pc + 2)) :=
  (exec_eq_execute s _).trans (State.execute_ok (swapBody_invalid ha))

end

/-- A second SWAP reads what the first wrote and puts the byte the first read back (R150). -/
theorem swap_swap_mem {m : Memory} (hm : m.wf = true) (c : Nat) :
    let once := m.write c (swapNibbles (m.read c))
    once.write c (swapNibbles (once.read c)) = m := by
  intro once
  rw [Memory.read_write_self hm, swapNibbles_swapNibbles, Memory.write_write_self hm, Memory.write_read_self hm]

/-- Settles O36: the nibbles as numbers, the two forms of SWAP, and that two of them restore the memory. -/
theorem swapExchangesNibblesWithoutFlags : Obligations.SwapExchangesNibblesWithoutFlags := by
  refine ⟨encodedAs_of_mnemonic rfl rfl (fun _ _ => rfl) (fun _ _ => rfl),
    fun s a => ⟨fun ha => ?valid, fun ha => exec_swap_invalid ha, fun hm ha => ?twice⟩⟩
  case valid =>
    rw [exec_swap_valid ha, swapNibbles_eq]
    rfl
  case twice => exact ⟨_, _, exec_swap_valid ha, exec_swap_valid ha, swap_swap_mem hm a.toNat⟩

end Sys2Proof.Machine

/-! PROOFS. Bitwise logic (spec/43_logic.md R160 to R164): no bit leaves the byte, so the result is its own residue, and
the ALU shapes of arithmetic give the state. -/

namespace Sys2Proof.Machine

/-- A byte whose number is known is the residue of that number: it is below 256 already. -/
theorem byte_residue_of_toNat {r : Byte} {v : Nat} (h : r.toNat = v) : (r.toNat : Int) = (v : Int) % 256 := by
  have hr := r.isLt
  omega

/-! ### AND, OR, EOR -/

/-- Settles O38: the bits of the byte result are those of the two numbers, and write-back and the flags take it. -/
theorem registerLogicIsBitwiseAndSetsFlags : Obligations.RegisterLogicIsBitwiseAndSetsFlags := by
  refine ⟨encodedAs_of_mnemonic rfl rfl (fun _ _ => rfl) (fun _ _ => rfl),
    encodedAs_of_mnemonic rfl rfl (fun _ _ => rfl) (fun _ _ => rfl),
    encodedAs_of_mnemonic rfl rfl (fun _ _ => rfl) (fun _ _ => rfl),
    fun s a b => ⟨fun ha hb => ⟨?and, ?or, ?eor⟩, fun h => ?noop⟩⟩
  case and =>
    exact (exec_and s a b).trans (State.aluRR_withResult ha hb (byte_residue_of_toNat (BitVec.toNat_and _ _)))
  case or =>
    exact (exec_or s a b).trans (State.aluRR_withResult ha hb (byte_residue_of_toNat (BitVec.toNat_or _ _)))
  case eor =>
    exact (exec_eor s a b).trans (State.aluRR_withResult ha hb (byte_residue_of_toNat (BitVec.toNat_xor _ _)))
  case noop =>
    exact ⟨(exec_and s a b).trans (State.aluRR_invalid h _), (exec_or s a b).trans (State.aluRR_invalid h _),
      (exec_eor s a b).trans (State.aluRR_invalid h _)⟩

/-! ### ANDI, ORI -/

/-- Settles O39: as for two registers, with the immediate's low byte as the second operand. -/
theorem immediateLogicIsBitwiseAndSetsFlags : Obligations.ImmediateLogicIsBitwiseAndSetsFlags := by
  refine ⟨encodedAs_of_mnemonic rfl rfl (fun _ _ => rfl) (fun _ _ => rfl),
    encodedAs_of_mnemonic rfl rfl (fun _ _ => rfl) (fun _ _ => rfl),
    fun s a b => ⟨fun ha => ⟨?andi, ?ori⟩, fun ha => ?noop⟩⟩
  case andi =>
    rw [exec_andi, ← imm8_toNat]
    exact State.aluRI_withResult ha (byte_residue_of_toNat (BitVec.toNat_and _ _))
  case ori =>
    rw [exec_ori, ← imm8_toNat]
    exact State.aluRI_withResult ha (byte_residue_of_toNat (BitVec.toNat_or _ _))
  case noop =>
    exact ⟨(exec_andi s a b).trans (State.aluRI_invalid ha _), (exec_ori s a b).trans (State.aluRI_invalid ha _)⟩

end Sys2Proof.Machine

/-! PROOFS. Compare and jump (spec/44_compare_jump.md R170 to R172, R174, R175): the flags of a wrapped difference
without write-back, and the two ways a conditional jump can go. -/

namespace Sys2Proof.Machine

/-! ### Flags without write-back -/

namespace State

variable {s : State} {v : Int} {r : Byte}

/-- The flags of a byte result, from the exact integer it is the residue of (R140, R34). -/
theorem setZN_eq (len : Nat) (h : (r.toNat : Int) = v % 256) :
    (s.setZN r).withPc (s.pc + len) = s.withComparison v len := by
  simp only [setZN, withFlags, withPc, withComparison, zeroOf_eq, negativeOf_eq]
  congr 1
  · simp only [decide_eq_decide]; omega
  · simp only [decide_eq_decide]; omega

/-- A two-operand instruction whose body only sets the flags from `r`, the residue of `v`. -/
theorem execute_withComparison {body : State → Except Raise State}
    (hbody : body (s.withPc (s.pc + 2)) = .ok ((s.withPc (s.pc + 2)).setZN r)) (h : (r.toNat : Int) = v % 256) :
    s.execute 2 body = .next (s.withComparison v 3) := by
  rw [execute_ok hbody, ← setZN_eq 3 h]
  rfl

/-- The difference of two bytes vanishes modulo 256 only if they are equal: it lies strictly between -256 and 256. -/
theorem withComparison_sub_z (x y : Byte) (len : Nat) :
    (s.withComparison ((x.toNat : Int) - y.toNat) len).z = decide ((x.toNat : Int) = y.toNat) := by
  have hx := x.isLt
  have hy := y.isLt
  simp only [withComparison, decide_eq_decide]
  omega

end State

/-! ### CPI, CP -/

/-- Settles O40: the body sets the flags from the byte difference, the residue of the exact one, or does nothing when
an operand is no register. -/
theorem comparesWriteOnlyTheFlags : Obligations.ComparesWriteOnlyTheFlags := by
  refine ⟨encodedAs_of_mnemonic rfl rfl (fun _ _ => rfl) (fun _ _ => rfl),
    encodedAs_of_mnemonic rfl rfl (fun _ _ => rfl) (fun _ _ => rfl),
    fun s a b => ⟨fun ha => ?cpi, fun ha => ?cpiNoop, fun ha hb => ?cp, fun h => ?cpNoop⟩⟩
  case cpi =>
    rw [exec_eq_execute, ← imm8_toInt]
    exact ⟨State.execute_withComparison (cpiBody_valid ha) (byte_sub_residue _ _),
      State.withComparison_sub_z _ _ 3⟩
  case cpiNoop => exact (exec_eq_execute s _).trans (State.execute_ok (cpiBody_invalid ha))
  case cp =>
    rw [exec_eq_execute]
    exact ⟨State.execute_withComparison (cpBody_valid ha hb) (byte_sub_residue _ _),
      State.withComparison_sub_z _ _ 3⟩
  case cpNoop => exact (exec_eq_execute s _).trans (State.execute_ok (cpBody_invalid h))

/-! ### JZ, JNE -/

namespace State

variable {s : State} {cond : Bool → Bool}

/-- A taken jump: the loop's increment follows the assignment of the target (R175). -/
theorem jumpIf_taken (a : Word) (h : cond s.z = true) : s.jumpIf a cond = .next (s.withPc (a.toNat + 1)) := by
  rw [jumpIf_eq, if_pos h]

theorem jumpIf_untaken (a : Word) (h : cond s.z = false) : s.jumpIf a cond = .next (s.withPc (s.pc + 2)) := by
  rw [jumpIf_eq, if_neg (Bool.eq_false_iff.1 h)]

end State

/-- Settles O41: of JZ and JNE, whose conditions are Z and its negation, Z decides which is taken. -/
theorem jzAndJneJumpOnZero : Obligations.JzAndJneJumpOnZero := by
  refine ⟨encodedAs_of_mnemonic rfl rfl (fun _ _ => rfl) (fun _ _ => rfl),
    encodedAs_of_mnemonic rfl rfl (fun _ _ => rfl) (fun _ _ => rfl),
    fun s a => ⟨fun hz => ?zero, fun hz => ?nonzero⟩⟩
  case zero =>
    exact ⟨(exec_jz s a).trans (State.jumpIf_taken a hz),
      (exec_jne s a).trans (State.jumpIf_untaken a (congrArg Bool.not hz))⟩
  case nonzero =>
    exact ⟨(exec_jz s a).trans (State.jumpIf_untaken a hz),
      (exec_jne s a).trans (State.jumpIf_taken a (congrArg Bool.not hz))⟩

end Sys2Proof.Machine

/-! PROOFS. Termination, no-operation and unknown words (spec/45_control_io.md R180, R181, R184, R185). A word that is no
opcode, `BAD_WORD` or any other, is one case: what it executes as only logs that word. -/

namespace Sys2Proof.Machine

variable {s : State} {w : Word}

/-- An instruction without operands: its body runs in the state at the fetch itself, then the loop's increment. -/
theorem exec_of_no_operands {i : Instr} {t : State} (hops : i.operands = []) (hbody : body i s = .ok t) :
    exec i s = .next (t.withPc (t.pc + 1)) := by
  rw [exec_eq_execute, hops]
  exact State.execute_ok (k := 0) hbody

/-! ### BREAK, NOP -/

/-- Settles O44: neither has an operand; what BREAK's body assigns to `pc` is then incremented by the loop. -/
theorem breakHaltsAndNopAdvances : Obligations.BreakHaltsAndNopAdvances := by
  refine ⟨encodedAs_of_mnemonic rfl rfl (fun _ _ => rfl) (fun _ _ => rfl),
    encodedAs_of_mnemonic rfl rfl (fun _ _ => rfl) (fun _ _ => rfl), fun s => ⟨?brk, ?nop, ?ended⟩⟩
  case brk => exact exec_of_no_operands (t := s.halt) rfl rfl
  case nop => exact exec_of_no_operands (t := s) rfl rfl
  case ended => exact fun hf => ⟨hf, Nat.le_succ s.cfg.progSize⟩

/-! ### Words that are no opcode -/

theorem State.logDiag_eq_withDiag (i : Nat) (w : Word) :
    s.logDiag i w = s.withDiag (if s.cfg.diagLog then s.diag ++ [(i, w)] else s.diag) := by
  unfold State.logDiag
  split <;> rfl

/-- An instruction that takes no operand and only logs `w` changes the diagnostic at most, and advances by one. -/
theorem exec_of_body_logs {i : Instr} (hops : i.operands = []) (hbody : body i s = .ok (s.logDiag s.pc w)) :
    exec i s = .next { s with
      diag := if s.cfg.diagLog then s.diag ++ [(s.pc, w)] else s.diag, pc := s.pc + 1 } := by
  rw [State.logDiag_eq_withDiag] at hbody
  exact exec_of_no_operands hops hbody

theorem lookup_eq_none_of_ne_code {c : Config} (h : ∀ m, w ≠ c.opc.code m) : c.lookup w = none := by
  cases hl : c.lookup w with
  | none => rfl
  | some m => exact absurd (Config.code_of_lookup hl).symm (h m)

/-- A running core at a word that is no opcode executes BAD or UNKNOWN, whatever the words after it are. -/
theorem step_no_opcode (hr : s.Running) (h : ∀ m, s.progWord s.pc ≠ s.cfg.opc.code m) :
    step s = exec (if s.progWord s.pc = s.cfg.badWord then .bad else .unknown (s.progWord s.pc)) s := by
  have hd := decode_no_opcode (lookup_eq_none_of_ne_code h) (s.wordsFrom 2 (s.pc + 1))
  exact step_of_decode hr ((congrArg (decode s.cfg) (State.fetchWords_running hr.2)).trans hd)

/-- Settles O47: BAD and UNKNOWN log the word they stand for, and one of them is what a step at such a word executes. -/
theorem unknownWordsOnlyAdvance : Obligations.UnknownWordsOnlyAdvance := by
  refine fun s => ⟨fun w => exec_of_body_logs rfl rfl, exec_of_body_logs rfl rfl, fun hr h => ?_⟩
  rw [step_no_opcode hr h]
  split
  next hbad => exact exec_of_body_logs rfl (hbad ▸ rfl)
  next => exact exec_of_body_logs rfl rfl

end Sys2Proof.Machine

/-! PROOFS. Decoding and encoding (spec/30_encoding.md sections 1 and 2): the round trip in both directions. Then the
fetch (spec/40_execution_loop.md R101 to R103): what the words at `pc` make a step do. -/

namespace Sys2Proof

variable {c : Config} {i : Instr} {m : Mnemonic} {ws rest : List Word}

/-! ### Decode of encode -/

/-- An instruction without a mnemonic is BAD or UNKNOWN. -/
theorem Instr.of_mnemonic_none (h : i.mnemonic = none) : i = .bad ∨ ∃ w, i = .unknown w := by
  cases i with
  | bad => exact .inl rfl
  | unknown w => exact .inr ⟨w, rfl⟩
  | _ => cases h

theorem Instr.wf_unknown_iff (w : Word) :
    (Instr.unknown w).wf c = true ↔ c.lookup w = none ∧ w ≠ c.badWord := by
  simp [Instr.wf]

/-- Settles O9: by the mnemonic, the opcode is looked up as it and its operands are taken; BAD and UNKNOWN stand alone,
and well-formedness keeps the word of UNKNOWN apart from every other. -/
theorem decodeOfEncodeIsTheInstruction : Obligations.DecodeOfEncodeIsTheInstruction := by
  intro c i rest hc hwf
  cases hm : i.mnemonic with
  | some m =>
    rw [encode_of_mnemonic hm, List.cons_append, decode_opcode hc]
    exact Mnemonic.pending_take hm rest
  | none =>
    obtain rfl | ⟨w, rfl⟩ := Instr.of_mnemonic_none hm
    · exact (decode_no_opcode (Config.lookup_badWord hc) rest).trans (by rw [if_pos rfl])
    · obtain ⟨hlookup, hbad⟩ := (Instr.wf_unknown_iff w).1 hwf
      exact (decode_no_opcode hlookup rest).trans (by rw [if_neg hbad])

/-! ### Encode of decode -/

theorem Instr.wf_of_mnemonic (h : i.mnemonic = some m) : i.wf c = true := by
  cases i with
  | unknown => cases h
  | _ => rfl

/-- What a pending instruction builds from its operand words is written `m` with those operands. -/
def Pending.Builds (m : Mnemonic) : Pending → Prop
  | .zero i => i.mnemonic = some m ∧ i.operands = []
  | .one f => ∀ a, (f a).mnemonic = some m ∧ (f a).operands = [a]
  | .two f => ∀ a b, (f a b).mnemonic = some m ∧ (f a b).operands = [a, b]

theorem Mnemonic.pending_builds (m : Mnemonic) : m.pending.Builds m := by
  cases m with
  | brk | nop => exact ⟨rfl, rfl⟩
  | push | pop | inc | dec | swap | neg | ror | jz | je | jne => exact fun _ => ⟨rfl, rfl⟩
  | _ => exact fun _ _ => ⟨rfl, rfl⟩

/-- The operand words that were taken are those the instruction is written with. -/
theorem Pending.Builds.of_take {p : Pending} (hp : p.Builds m) (h : p.take ws = .ok (i, rest)) :
    i.mnemonic = some m ∧ ws = i.operands ++ rest := by
  match p, ws with
  | .zero j, ws =>
    cases h
    exact ⟨hp.1, by rw [hp.2, List.nil_append]⟩
  | .one f, a :: ws =>
    cases h
    exact ⟨(hp a).1, by rw [(hp a).2, List.singleton_append]⟩
  | .two f, a :: b :: ws =>
    cases h
    exact ⟨(hp a b).1, by rw [(hp a b).2, List.cons_append, List.singleton_append]⟩
  | .one _, [] | .two _, [] | .two _, [_] => cases h

/-- Settles O10: a word looked up as a mnemonic is its opcode and the operands are those taken; any other word is
BAD_WORD or an UNKNOWN that is well-formed because it is neither. -/
theorem encodeOfDecodeIsTheWords : Obligations.EncodeOfDecodeIsTheWords := by
  intro c ws i rest h
  cases ws with
  | nil => cases h
  | cons w ws =>
    cases hw : c.lookup w with
    | some m =>
      simp only [decode, decodeStage_eq, hw] at h
      obtain ⟨hm, hws⟩ := m.pending_builds.of_take h
      exact ⟨Instr.wf_of_mnemonic hm, by rw [encode_of_mnemonic hm, Config.code_of_lookup hw, hws, List.cons_append]⟩
    | none =>
      rw [decode_no_opcode hw] at h
      split at h
      next hbad =>
        cases h
        exact ⟨rfl, by rw [hbad]; rfl⟩
      next hbad =>
        cases h
        exact ⟨(Instr.wf_unknown_iff w).2 ⟨hw, hbad⟩, rfl⟩

/-- Settles O8: the default table evaluated on closed words. -/
theorem sampleWordsDecodeAsTheTableSays : Obligations.SampleWordsDecodeAsTheTableSays := by
  unfold Obligations.SampleWordsDecodeAsTheTableSays
  decide

end Sys2Proof

namespace Sys2Proof.Machine

variable {s : State} {i : Instr}

/-! ### What a step fetches and executes -/

/-- Settles O11: the store's cells by position, and a step of words that decode. -/
theorem stepRunsTheDecodedInstruction : Obligations.StepRunsTheDecodedInstruction :=
  ⟨fun s k => s.wordsFrom_getElem? 3 s.pc k, fun _ _ _ hr hd => step_of_decode hr hd⟩

theorem encode_length_le (c : Config) (i : Instr) : (encode c i).length ≤ 3 := by
  cases i <;> exact Nat.le_of_ble_eq_true rfl

/-- The words of an instruction that stands at `pc` are the first that a step fetches. -/
theorem State.Holds.encode_prefix_fetchWords (h : s.Holds i) : encode s.cfg i <+: s.fetchWords := by
  refine List.prefix_iff_getElem?.2 fun k hk => ?_
  obtain ⟨hstore, hword⟩ := h k _ (List.getElem?_eq_getElem hk)
  have hlen := encode_length_le s.cfg i
  rw [State.fetchWords, State.wordsFrom_getElem?, if_pos ⟨by omega, hstore⟩, hword]

/-- Settles O12: the fetched words begin with the instruction's encoding, which decodes to it. -/
theorem storedEncodingIsExecuted : Obligations.StoredEncodingIsExecuted := by
  intro s i hc hr hwf hholds
  obtain ⟨rest, hrest⟩ := hholds.encode_prefix_fetchWords
  exact step_of_decode hr (hrest ▸ decodeOfEncodeIsTheInstruction s.cfg i rest hc hwf)

/-- Settles O13: a mnemonic takes as many operand words as its format names. -/
theorem operandPastTheStoreTakesFetchFault : Obligations.OperandPastTheStoreTakesFetchFault :=
  fun _ m hc hr hm h => step_operands_missing hc hr hm (m.pending_count ▸ h)

end Sys2Proof.Machine

/-! PROOFS. Frames of every instruction: what an invalid register operand does (spec/30_encoding.md section 3), which
cells a body writes (spec/20_memory.md section 2), when it raises (spec/60_exceptions.md sections 1 and 3), where it
leaves `pc` (spec/10_state.md section 3) and what it logs (spec/45_control_io.md, the diagnostic event). Each is proved
of the body, and read off the instruction by one lemma that says how a body's answer becomes the next state. -/

namespace Sys2Proof.Machine

variable {s t u : State} {i : Instr} {w : Word}

/-! ### From a body to the instruction -/

/-- An instruction completes with its body's answer, the loop's increment and no new fault, or takes MemFault at an
address out of range. -/
theorem exec_completes_or_faults (h : exec i s = .next t) :
    (∃ u, body i (s.withPc (s.pc + i.operands.length)) = .ok u ∧ t = u.withPc (u.pc + 1) ∧ t.fault = s.fault) ∨
    ∃ y, s.cfg.memSize ≤ y ∧ body i (s.withPc (s.pc + i.operands.length)) = .error (.memFault y) ∧
      t = s.takeFault (.memFault y) := by
  obtain ⟨v, hv, -, -, hfault⟩ | ⟨y, hrange, hy⟩ := body_cases i (s.withPc (s.pc + i.operands.length))
  · obtain ⟨u, hu, rfl⟩ | ⟨r, hr, -⟩ := exec_cases h
    · cases hu.symm.trans hv
      exact .inl ⟨_, hu, rfl, hfault⟩
    · cases hr.symm.trans hv
  · obtain ⟨u, hu, -⟩ | ⟨r, hr, rfl⟩ := exec_cases h
    · cases hu.symm.trans hy
    · cases hr.symm.trans hy
      exact .inr ⟨y, hrange, hy, rfl⟩

theorem exec_of_body_ok (h : body i (s.withPc (s.pc + i.operands.length)) = .ok u) :
    exec i s = .next (u.withPc (u.pc + 1)) :=
  (exec_eq_execute s i).trans (State.execute_ok h)

/-! ### An invalid register operand -/

section
variable {a b : Word}

theorem aluRBody_invalid (h : 16 ≤ a.toNat) (f : Bool → Byte → Byte) : State.aluRBody a f s = .ok s := by
  simp [State.aluRBody, validReg_of_ge h]

theorem aluRIBody_invalid (h : 16 ≤ a.toNat) (f : Byte → Byte → Byte) : State.aluRIBody a b f s = .ok s := by
  simp [State.aluRIBody, validReg_of_ge h]

theorem aluRRBody_invalid (h : 16 ≤ a.toNat ∨ 16 ≤ b.toNat) (f : Byte → Byte → Byte) :
    State.aluRRBody a b f s = .ok s := by
  rcases h with h | h <;> simp [State.aluRRBody, validReg_of_ge h]

theorem ge_of_mem_singleton (hw : w ∈ [a]) (h : 16 ≤ w.toNat) : 16 ≤ a.toNat :=
  List.mem_singleton.1 hw ▸ h

theorem ge_or_ge_of_mem_pair (hw : w ∈ [a, b]) (h : 16 ≤ w.toNat) : 16 ≤ a.toNat ∨ 16 ≤ b.toNat := by
  obtain rfl | hw := List.mem_cons.1 hw
  · exact .inl h
  · exact .inr (ge_of_mem_singleton hw h)

end

/-- The body does nothing, by the instruction's operand kinds: one register, two of them, or none. -/
theorem body_of_invalid_register (hw : w ∈ i.regOperands) (h : 16 ≤ w.toNat) : body i s = .ok s := by
  cases i with
  | ldi a b | adiw a b | subi a b | andi a b | ori a b =>
    unfold body
    exact aluRIBody_invalid (ge_of_mem_singleton hw h) _
  | add a b | sub a b | mul a b | and a b | or a b | eor a b => exact aluRRBody_invalid (ge_or_ge_of_mem_pair hw h) _
  | inc a | dec a | neg a | ror a =>
    unfold body
    exact aluRBody_invalid (ge_of_mem_singleton hw h) _
  | mov a b => exact movBody_invalid (ge_or_ge_of_mem_pair hw h)
  | cp a b => exact cpBody_invalid (ge_or_ge_of_mem_pair hw h)
  | swap a => exact swapBody_invalid (ge_of_mem_singleton hw h)
  | cpi a b => exact cpiBody_invalid (ge_of_mem_singleton hw h)
  | push a => exact pushBody_noop (ge_of_mem_singleton hw h)
  | pop a => exact popBody_noop (ge_of_mem_singleton hw h)
  | out a b => exact outBody_noop (ge_of_mem_singleton hw h)
  | inp a b => exact inBody_noop (ge_of_mem_singleton hw h)
  | movw | jz | je | jne | brk | nop | bad | unknown => cases hw

/-- Settles O25: the body does nothing, so only the operand fetches and the loop's increment move `pc`. -/
theorem invalidRegisterOperandMakesANoOp : Obligations.InvalidRegisterOperandMakesANoOp := by
  intro i s w hw h
  have hlen : s.pc + i.operands.length + 1 = s.pc + i.length := by
    unfold Instr.length
    omega
  rw [exec_of_body_ok (body_of_invalid_register hw h), State.withPc_withPc, State.withPc_pc, hlen]
  rfl

/-! ### When a body raises -/

theorem sp_succ_toNat : (s.sp + 1).toNat = (s.sp.toNat + 1) % 65536 := BitVec.toNat_add _ _

theorem memFaultAt_withPc (i : Instr) (s : State) (p : Nat) : i.memFaultAt (s.withPc p) = i.memFaultAt s := by
  cases i <;> rfl

/-- Where the spec lists a MemFault the body raises it, at the address listed. -/
theorem body_of_memFaultAt {y : Nat} (hc : s.cfg.Valid) (h : i.memFaultAt s = some y) :
    body i s = .error (.memFault y) := by
  cases i with
  | movw a b =>
    simp only [Instr.memFaultAt] at h
    split at h
    next hin =>
      have hraise := movwBody_error (s := s) hin.1 hin.2
      split at h
      · cases h
        exact hraise (.inr ‹_›)
      · split at h
        · cases h
          exact hraise (.inl ‹_›)
        · cases h
    next => cases h
  | push a =>
    obtain ⟨⟨ha, hsp⟩, hy⟩ := Option.ite_none_right_eq_some.1 h
    cases hy
    exact pushBody_error hc ha hsp
  | pop a =>
    obtain ⟨⟨ha, hsp⟩, hy⟩ := Option.ite_none_right_eq_some.1 h
    cases hy
    rw [← sp_succ_toNat] at hsp ⊢
    exact popBody_error hc ha hsp
  | out a b =>
    obtain ⟨⟨hb, ha⟩, hy⟩ := Option.ite_none_right_eq_some.1 h
    cases hy
    exact outBody_error hb ha
  | inp a b =>
    obtain ⟨⟨ha, hb⟩, hy⟩ := Option.ite_none_right_eq_some.1 h
    cases hy
    exact inBody_error ha hb
  | _ => cases h

theorem memFaultAt_eq_none_of_body_ok (hc : s.cfg.Valid) (h : body i s = .ok u) : i.memFaultAt s = none := by
  cases hf : i.memFaultAt s with
  | none => rfl
  | some y => cases h.symm.trans (body_of_memFaultAt hc hf)

/-- A MOVW of two operands in range that takes no fault has both high bytes in range too. -/
theorem movw_in_range {a b : Word} (h : (Instr.movw a b).memFaultAt s = none)
    (hin : a.toNat < s.cfg.memSize ∧ b.toNat < s.cfg.memSize) :
    a.toNat + 1 < s.cfg.memSize ∧ b.toNat + 1 < s.cfg.memSize := by
  simp only [Instr.memFaultAt, if_pos hin] at h
  split at h
  · cases h
  · split at h
    · cases h
    · omega

/-- Where the spec lists no MemFault the body completes: every access is in range, or a register operand is invalid. -/
theorem body_ok_of_memFaultAt_none (hc : s.cfg.Valid) (hm : s.mem.wf = true) (h : i.memFaultAt s = none) :
    ∃ u, body i s = .ok u := by
  cases i with
  | movw a b =>
    by_cases hin : a.toNat < s.cfg.memSize ∧ b.toNat < s.cfg.memSize
    · obtain ⟨ha, hb⟩ := movw_in_range h hin
      exact ⟨_, movwBody_ok ha hb⟩
    · exact ⟨_, movwBody_noop (by omega)⟩
  | push a =>
    obtain ha | ha := Nat.lt_or_ge a.toNat 16
    · have hsp : ¬ (a.toNat < 16 ∧ s.cfg.memSize ≤ s.sp.toNat) := by simpa [Instr.memFaultAt] using h
      exact ⟨_, pushBody_ok hc ha (by omega)⟩
    · exact ⟨_, pushBody_noop ha⟩
  | pop a =>
    obtain ha | ha := Nat.lt_or_ge a.toNat 16
    · have hsp : ¬ (a.toNat < 16 ∧ s.cfg.memSize ≤ (s.sp + 1).toNat) := by
        rw [sp_succ_toNat]
        simpa [Instr.memFaultAt] using h
      exact ⟨_, popBody_ok hc hm ha (by omega)⟩
    · exact ⟨_, popBody_noop ha⟩
  | out a b =>
    obtain hb | hb := Nat.lt_or_ge b.toNat 16
    · have ha : ¬ (b.toNat < 16 ∧ s.cfg.memSize ≤ a.toNat) := by simpa [Instr.memFaultAt] using h
      exact ⟨_, outBody_ok hb (by omega)⟩
    · exact ⟨_, outBody_noop hb⟩
  | inp a b =>
    obtain ha | ha := Nat.lt_or_ge a.toNat 16
    · have hb : ¬ (a.toNat < 16 ∧ s.cfg.memSize ≤ b.toNat) := by simpa [Instr.memFaultAt] using h
      exact ⟨_, inBody_ok ha (by omega)⟩
    · exact ⟨_, inBody_noop ha⟩
  | _ => exact ⟨_, rfl⟩

/-- Settles O17: the body raises where the table lists a MemFault, and completes everywhere else. -/
theorem memFaultsAreExactlyTheListedOnes : Obligations.MemFaultsAreExactlyTheListedOnes := by
  refine fun i s hc hm hf => ⟨fun a ha => ?_, fun hnone => ?_⟩
  · have hbody := body_of_memFaultAt (s := s.withPc (s.pc + i.operands.length)) hc
      ((memFaultAt_withPc i s _).trans ha)
    rw [exec_eq_execute, State.execute_error hbody]
    rfl
  · obtain ⟨u, hu⟩ := body_ok_of_memFaultAt_none (s := s.withPc (s.pc + i.operands.length)) hc hm
      ((memFaultAt_withPc i s _).trans hnone)
    have hexec := exec_of_body_ok hu
    obtain ⟨-, -, -, hfault⟩ | ⟨y, -, hy, -⟩ := exec_completes_or_faults hexec
    · exact ⟨_, hexec, hfault.trans hf⟩
    · cases hu.symm.trans hy

/-! ### The cells a body writes -/

/-- A memory that comes from `m` by writes to cells of `p` alone. -/
inductive Memory.Writes (p : Nat → Prop) (m : Memory) : Memory → Prop
  | none : Writes p m m
  | write {m' : Memory} {a : Nat} (h : Writes p m m') (ha : p a) (v : Byte) : Writes p m (m'.write a v)

namespace Memory.Writes

variable {p : Nat → Prop} {m m' : Memory}

theorem read_eq (h : Writes p m m') {b : Nat} (hb : ¬ p b) : m'.read b = m.read b := by
  induction h with
  | none => rfl
  | write _ ha v ih =>
    refine (Memory.read_write_ne v ?_).trans ih
    rintro rfl
    exact hb ha

theorem keeps_wf (h : Writes p m m') (hm : m.wf = true) : m'.wf = true := by
  induction h with
  | none => exact hm
  | write _ _ v ih => exact Memory.write_wf ih _ v

theorem keeps_below {n : Nat} (h : Writes p m m') (hp : ∀ a, p a → a < n) (hm : Cells.below n m = true) :
    Cells.below n m' = true := by
  induction h with
  | none => exact hm
  | write _ ha v ih => exact Memory.write_below ih (hp _ ha) v

end Memory.Writes

/-- An OUT that completes stores in range and lets the port decoder act, or has an invalid register and does nothing. -/
theorem outBody_cases {a b : Word} (h : outBody a b s = .ok u) :
    (b.toNat < 16 ∧
      u = (s.withMem (s.mem.write a.toNat (s.mem.read b.toNat))).portEffect a.toNat (s.mem.read b.toNat)) ∨
    (16 ≤ b.toNat ∧ u = s) := by
  obtain hb | hb := Nat.lt_or_ge b.toNat 16
  · obtain ha | ha := Nat.lt_or_ge a.toNat s.cfg.memSize
    · cases h.symm.trans (outBody_ok hb ha)
      exact .inl ⟨hb, rfl⟩
    · cases h.symm.trans (outBody_error hb ha)
  · cases h.symm.trans (outBody_noop hb)
    exact .inr ⟨hb, rfl⟩

/-- A body that completes has written cells its instruction may store to. -/
theorem body_writes_stores (h : body i s = .ok u) : Memory.Writes (· ∈ i.stores s) s.mem u.mem := by
  cases i with
  | movw a b =>
    obtain ⟨_, _, ha, hb, -, hok⟩ | hok | ⟨_, -, hok⟩ := movwBody_cases a b s <;> cases h.symm.trans hok
    · have hcells : (Instr.movw a b).stores s = [a.toNat, a.toNat + 1] := if_pos ⟨ha, hb⟩
      rw [hcells]
      exact .write (.write .none (by simp) _) (by simp) _
    · exact .none
  | push a =>
    obtain ⟨_, _, _, -, -, -, hok⟩ | hok | ⟨_, -, hok⟩ := pushBody_cases a s <;> cases h.symm.trans hok
    · exact .write (.write (.write .none (by simp [Instr.stores]) _) (by simp [Instr.stores]) _)
        (by simp [Instr.stores]) _
    · exact .none
  | pop a =>
    obtain ⟨_, _, _, -, -, hok⟩ | hok | ⟨_, -, hok⟩ := popBody_cases a s <;> cases h.symm.trans hok
    · exact .write (.write (.write .none (by simp [Instr.stores]) _) (by simp [Instr.stores]) _)
        (by simp [Instr.stores]) _
    · exact .none
  | out a b =>
    obtain ⟨-, rfl⟩ | ⟨-, rfl⟩ := outBody_cases h
    · rw [State.portEffect_mem]
      exact .write .none (List.mem_singleton_self _) _
    · exact .none
  | inp a b =>
    obtain ha | ha := Nat.lt_or_ge a.toNat 16
    · obtain hb | hb := Nat.lt_or_ge b.toNat s.cfg.memSize
      · cases h.symm.trans (inBody_ok ha hb)
        exact .write .none (List.mem_singleton_self _) _
      · cases h.symm.trans (inBody_error ha hb)
    · cases h.symm.trans (inBody_noop ha)
      exact .none
  | cpi | cp | jz | je | jne =>
    obtain rfl := Except.ok.inj h
    split <;> exact .none
  | brk | nop =>
    cases h
    exact .none
  | bad | unknown =>
    cases h
    rw [State.logDiag_mem]
    exact .none
  | _ =>
    obtain rfl := Except.ok.inj h
    split
    · exact .write .none (List.mem_singleton_self _) _
    · exact .none

/-- Either every register operand is valid, or one is not. -/
theorem registers_valid_or_invalid (i : Instr) :
    (i.regOperands.all fun w => decide (w.toNat < 16)) = true ∨ ∃ w ∈ i.regOperands, 16 ≤ w.toNat := by
  by_cases h : ∃ w ∈ i.regOperands, 16 ≤ w.toNat
  · exact .inr h
  · refine .inl (List.all_eq_true.2 fun w hw => decide_eq_true ?_)
    exact Nat.lt_of_not_le fun hge => h ⟨w, hw, hge⟩

/-- A body that completes has written the cells of `Instr.written` alone. -/
theorem body_writes (hc : s.cfg.Valid) (h : body i s = .ok u) : Memory.Writes (· ∈ i.written s) s.mem u.mem := by
  obtain hvalid | ⟨w, hw, hge⟩ := registers_valid_or_invalid i
  · have hwritten : i.written s = i.stores s := if_pos ⟨hvalid, memFaultAt_eq_none_of_body_ok hc h⟩
    rw [hwritten]
    exact body_writes_stores h
  · cases h.symm.trans (body_of_invalid_register hw hge)
    exact .none

theorem written_withPc (i : Instr) (s : State) (p : Nat) : i.written (s.withPc p) = i.written s := by
  cases i <;> rfl

theorem exec_writes (hc : s.cfg.Valid) (h : exec i s = .next t) : Memory.Writes (· ∈ i.written s) s.mem t.mem := by
  obtain ⟨u, hu, rfl, -⟩ | ⟨y, -, -, rfl⟩ := exec_completes_or_faults h
  · rw [← written_withPc i s (s.pc + i.operands.length)]
    exact body_writes (s := s.withPc _) (u := u) hc hu
  · exact .none

/-- Settles O19: a cell outside `Instr.written` is in none of the writes. -/
theorem everyInstructionWritesOnlyItsCells : Obligations.EveryInstructionWritesOnlyItsCells :=
  fun _ _ _ hc h => ⟨fun _ ha => (exec_writes hc h).read_eq ha, exec_prog_cfg h⟩

/-! ### Where an instruction leaves `pc` -/

theorem outBody_pc {a b : Word} (h : outBody a b s = .ok u) :
    u.pc = if b.toNat < 16 ∧ a.toNat = s.cfg.portExit then s.cfg.progSize else s.pc := by
  obtain ⟨hb, rfl⟩ | ⟨hb, rfl⟩ := outBody_cases h
  · by_cases hport : a.toNat = s.cfg.portExit <;> simp [hb, hport]
  · simp [Nat.not_lt.2 hb]

/-- After the loop's increment, a body that completes has left `pc` where the summary table says. -/
theorem body_pc (h : body i (s.withPc (s.pc + i.operands.length)) = .ok u) : u.pc + 1 = i.nextPc s := by
  cases i with
  | movw a b => exact congrArg (·.pc + 1) (writesMemoryOnly_movw a b _ u h)
  | push a => exact congrArg (·.pc + 1) (writesMemoryOnly_push a _ u h)
  | pop a => exact congrArg (·.pc + 1) (writesMemoryOnly_pop a _ u h)
  | inp a b => exact congrArg (·.pc + 1) (writesMemoryOnly_inp a b _ u h)
  | out a b =>
    rw [outBody_pc h]
    exact apply_ite (· + 1) _ _ _
  | jz | je =>
    obtain rfl := Except.ok.inj h
    cases hz : s.z <;> simp [Instr.nextPc, Instr.operands, targetOf, hz]
  | jne =>
    obtain rfl := Except.ok.inj h
    cases hz : s.z <;> simp [Instr.nextPc, Instr.operands, targetOf, hz]
  | brk | nop =>
    cases h
    rfl
  | bad | unknown =>
    cases h
    rw [State.logDiag_pc]
    rfl
  | _ =>
    obtain rfl := Except.ok.inj h
    split <;> rfl

/-- Settles O16: a completed body leaves `pc` as the table says, and a taken fault leaves it alone. -/
theorem pcAfterEachInstruction : Obligations.PcAfterEachInstruction := by
  intro i s t _ hf h
  obtain ⟨u, hu, rfl, hfault⟩ | ⟨y, -, -, rfl⟩ := exec_completes_or_faults h
  · exact ⟨fun _ => body_pc hu, fun hne => absurd (hfault.trans hf) hne⟩
  · exact ⟨nofun, fun _ => rfl⟩

/-! ### What an instruction logs -/

theorem outBody_diag {a b : Word} (h : outBody a b s = .ok u) : u.diag = s.diag := by
  obtain ⟨-, rfl⟩ | ⟨-, rfl⟩ := outBody_cases h
  · exact State.portEffect_diag _ _ _
  · rfl

/-- A body logs only for BAD and UNKNOWN. -/
theorem body_diag (h : body i s = .ok u) : u.diag = s.diag ++ (if s.cfg.diagLog then i.logs s else []) := by
  cases i with
  | bad | unknown =>
    cases h
    exact State.logDiag_diag _ _ _
  | movw a b => simpa [Instr.logs] using congrArg State.diag (writesMemoryOnly_movw a b s u h)
  | push a => simpa [Instr.logs] using congrArg State.diag (writesMemoryOnly_push a s u h)
  | pop a => simpa [Instr.logs] using congrArg State.diag (writesMemoryOnly_pop a s u h)
  | inp a b => simpa [Instr.logs] using congrArg State.diag (writesMemoryOnly_inp a b s u h)
  | out a b => simpa [Instr.logs] using outBody_diag h
  | brk | nop =>
    cases h
    simp [Instr.logs]
  | _ =>
    obtain rfl := Except.ok.inj h
    simp only [Instr.logs, ite_self, List.append_nil]
    split <;> rfl

/-- The logged index is that of the instruction: an instruction that logs has no operand words. -/
theorem logs_withPc_operands (i : Instr) (s : State) : i.logs (s.withPc (s.pc + i.operands.length)) = i.logs s := by
  cases i <;> rfl

theorem logs_of_body_error {r : Raise} (h : body i s = .error r) : i.logs s = [] := by
  cases i with
  | bad | unknown => cases h
  | _ => rfl

/-- Settles O23: the body's log, and none where it raises. -/
theorem diagnosticOnlyForUnknownWords : Obligations.DiagnosticOnlyForUnknownWords := by
  intro i s t h
  rw [← logs_withPc_operands]
  obtain ⟨u, hu, rfl, -⟩ | ⟨y, -, hy, rfl⟩ := exec_completes_or_faults h
  · exact body_diag hu
  · simp [logs_of_body_error hy]

end Sys2Proof.Machine

/-! PROOFS. The step (spec/40_execution_loop.md sections 1 and 3, spec/60_exceptions.md section 2): it is enabled exactly
in a running core, and a fault it takes names the instruction at `pc`. Then the invariant: every step keeps it, so every
run does, and a run stops only by name. -/

namespace Sys2Proof.Machine

variable {s t : State} {i : Instr} {c : Config} {ws rest : List Word} {e : DecodeError}

/-! ### A fetch that takes a fault, and the room of one that does not -/

/-- Operands are missing only where fewer than two words are left, and the first that is missing comes after those. -/
theorem offset_of_take_error {p : Pending} (h : p.take ws = .error e) : e.offset = ws.length + 1 ∧ ws.length < 2 := by
  match p, ws with
  | .one _, [] | .two _, [] | .two _, [_] =>
    cases h
    exact ⟨rfl, by simp⟩
  | .zero _, _ | .one _, _ :: _ | .two _, _ :: _ :: _ => cases h

theorem offset_of_decode_error (h : decode c ws = .error e) : e.offset = ws.length ∧ ws.length < 3 := by
  cases ws with
  | nil =>
    cases h
    exact ⟨rfl, Nat.zero_lt_succ 2⟩
  | cons w ws =>
    cases hw : c.lookup w with
    | none => cases h.symm.trans (decode_no_opcode hw ws)
    | some m =>
      simp only [decode, decodeStage_eq, hw] at h
      obtain ⟨hoffset, hlen⟩ := offset_of_take_error h
      exact ⟨hoffset, Nat.succ_lt_succ hlen⟩

/-- A step fetches three words, or as many as the store still has. -/
theorem fetchWords_length (s : State) : s.fetchWords.length = min 3 (s.cfg.progSize - s.pc) :=
  State.wordsFrom_length 3 s.pc

/-- Less than three words were fetched, so the word that is missing lies past the store. -/
theorem progSize_le_of_decode_error (h : decode s.cfg s.fetchWords = .error e) : s.cfg.progSize ≤ s.pc + e.offset := by
  obtain ⟨hoffset, hlen⟩ := offset_of_decode_error h
  rw [fetchWords_length] at hoffset hlen
  omega

/-- An instruction was decoded from words that all lie in the store. -/
theorem length_le_of_decode (hr : s.Running) (h : decode s.cfg s.fetchWords = .ok (i, rest)) :
    s.pc + i.length ≤ s.cfg.progSize := by
  obtain ⟨-, hws⟩ := encodeOfDecodeIsTheWords _ _ _ _ h
  have hlen := congrArg List.length hws
  have hpc := hr.2
  rw [fetchWords_length, List.length_append, encode, List.length_cons] at hlen
  unfold Instr.length
  omega

/-! ### What a step answers -/

/-- A step of a running core executes an instruction that lies in the store and completes, or takes a fault whose address
or index is out of range. -/
theorem step_completes_or_faults (h : step s = .next t) :
    (∃ i, s.pc + i.length ≤ s.cfg.progSize ∧ exec i s = .next t ∧ t.fault = none) ∨
    ∃ r : Raise, t = s.takeFault r ∧
      (r.code = .memFault ∧ s.cfg.memSize ≤ r.info ∨ r.code = .fetchFault ∧ s.cfg.progSize ≤ r.info) := by
  obtain ⟨hr, ⟨i, rest, hd, hi⟩ | ⟨e, hd, rfl⟩⟩ := step_cases h
  · obtain ⟨-, -, -, hfault⟩ | ⟨y, hy, -, rfl⟩ := exec_completes_or_faults hi
    · exact .inl ⟨i, length_le_of_decode hr hd, hi, hfault.trans hr.1⟩
    · exact .inr ⟨_, rfl, .inl ⟨rfl, hy⟩⟩
  · exact .inr ⟨_, rfl, .inr ⟨rfl, progSize_le_of_decode_error hd⟩⟩

/-- Settles O18: the fault a step takes is the only change, and its address or index is out of range. -/
theorem faultsArePrecise : Obligations.FaultsArePrecise := by
  intro s t r _ h hfault
  obtain ⟨i, -, -, hnone⟩ | ⟨raise, rfl, hout⟩ := step_completes_or_faults h
  · cases hnone.symm.trans hfault
  · cases hfault
    refine ⟨rfl, rfl, rfl, ?_⟩
    obtain ⟨hcode, hinfo⟩ | ⟨hcode, hinfo⟩ := hout
    · exact .inl ⟨congrArg FaultCode.number hcode, hinfo⟩
    · exact .inr ⟨congrArg FaultCode.number hcode, hinfo⟩

theorem step_of_running (h : s.Running) : ∃ t, step s = .next t := by
  rw [step_running h]
  split
  · exact exec_answers s _
  · exact ⟨_, rfl⟩

theorem step_of_faulted {r : FaultRecord} (h : s.fault = some r) : step s = .fault (.faulted r) := by
  rw [step, h]

theorem step_of_ended (h : s.EndedNormally) : step s = .fault .halted := by
  rw [step, h.1]
  exact if_neg (Nat.not_lt.2 h.2)

/-- A core runs, has ended normally, or is faulted. -/
theorem running_or_ended_or_faulted (s : State) : s.Running ∨ s.EndedNormally ∨ ∃ r, s.fault = some r := by
  cases hf : s.fault with
  | some r => exact .inr (.inr ⟨r, rfl⟩)
  | none =>
    obtain hpc | hpc := Nat.lt_or_ge s.pc s.cfg.progSize
    · exact .inl ⟨hf, hpc⟩
    · exact .inr (.inl ⟨hf, hpc⟩)

theorem status_running_iff : s.status = .running ↔ s.Running := by
  unfold State.status
  cases hf : s.fault with
  | some r => simp [State.Running, hf]
  | none => by_cases hpc : s.pc < s.cfg.progSize <;> simp [State.Running, hf, hpc]

/-- Settles O14: a running core steps, and a step that answers a next state was one of a running core. -/
theorem stepIsEnabledExactlyWhenRunning : Obligations.StepIsEnabledExactlyWhenRunning := by
  refine fun s => ⟨status_running_iff.trans ⟨step_of_running, ?_⟩, fun _ => step_of_faulted,
    fun hf hpc => step_of_ended ⟨hf, hpc⟩⟩
  rintro ⟨t, h⟩
  exact (step_cases h).1

/-! ### The invariant -/

/-- Under valid parameters every register is a cell of the memory. -/
theorem register_lt_memSize {w : Word} (hc : s.cfg.Valid)
    (hregs : (i.regOperands.all fun w => decide (w.toNat < 16)) = true) (hw : w ∈ i.regOperands) :
    w.toNat < s.cfg.memSize := by
  have hreg : w.toNat < 16 := of_decide_eq_true (List.all_eq_true.1 hregs w hw)
  have hsize := hc.1.1
  omega

/-- Under valid parameters every cell an instruction writes exists: a register, a byte of SP, or an address that takes no
MemFault. -/
theorem written_lt_memSize (hc : s.cfg.Valid) : ∀ x ∈ i.written s, x < s.cfg.memSize := by
  intro x hx
  unfold Instr.written at hx
  split at hx
  next hcond =>
    obtain ⟨hregs, hnone⟩ := hcond
    have hspAddr := spAddr_lt hc
    cases i with
    | movw a b =>
      simp only [Instr.stores, List.mem_ite_nil_right, List.mem_cons, List.not_mem_nil, or_false] at hx
      obtain ⟨hin, hx⟩ := hx
      have := movw_in_range hnone hin
      omega
    | push a =>
      have hsp : a.toNat < 16 → s.sp.toNat < s.cfg.memSize := by simpa [Instr.memFaultAt] using hnone
      have ha : a.toNat < 16 := of_decide_eq_true (List.all_eq_true.1 hregs a List.mem_cons_self)
      simp only [Instr.stores, List.mem_cons, List.not_mem_nil, or_false] at hx
      have := hsp ha
      omega
    | pop a =>
      have ha := register_lt_memSize (w := a) hc hregs List.mem_cons_self
      simp only [Instr.stores, List.mem_cons, List.not_mem_nil, or_false] at hx
      omega
    | out a b =>
      have haddr : b.toNat < 16 → a.toNat < s.cfg.memSize := by simpa [Instr.memFaultAt] using hnone
      have hb : b.toNat < 16 := of_decide_eq_true (List.all_eq_true.1 hregs b List.mem_cons_self)
      exact List.mem_singleton.1 hx ▸ haddr hb
    | cpi | cp | jz | je | jne | brk | nop | bad | unknown => cases hx
    | _ a => exact List.mem_singleton.1 hx ▸ register_lt_memSize hc hregs List.mem_cons_self
  next => cases hx

/-- An instruction that lies in the store leaves `pc` in its range (R32): past its words, at a target, or past the end. -/
theorem nextPc_le (h : s.pc + i.length ≤ s.cfg.progSize) : i.nextPc s ≤ max 65535 s.cfg.progSize + 1 := by
  have htarget (a : Word) : a.toNat + 1 ≤ max 65535 s.cfg.progSize + 1 := by
    have := a.isLt
    omega
  have hend : s.cfg.progSize + 1 ≤ max 65535 s.cfg.progSize + 1 := by omega
  have hwords : s.pc + i.length ≤ max 65535 s.cfg.progSize + 1 := by omega
  cases i with
  | jz a | je a =>
    simp only [Instr.nextPc]
    split
    · exact htarget a
    · exact hwords
  | jne a =>
    simp only [Instr.nextPc]
    split
    · exact hwords
    · exact htarget a
  | out a b =>
    simp only [Instr.nextPc]
    split
    · exact hend
    · exact hwords
  | brk => exact hend
  | _ => exact hwords

theorem inv_of_exec (hs : s.Inv) (hpc : s.pc + i.length ≤ s.cfg.progSize) (h : exec i s = .next t)
    (hf : s.fault = none) (ht : t.fault = none) : t.Inv := by
  obtain ⟨hprog, hcfg⟩ := exec_prog_cfg h
  have hmem := exec_writes hs.valid h
  have hpcAfter := (pcAfterEachInstruction i s t hs.valid hf h).1 ht
  have hdiag := diagnosticOnlyForUnknownWords i s t h
  exact {
    valid := hcfg ▸ hs.valid
    memWf := hmem.keeps_wf hs.memWf
    memRange := hcfg ▸ hmem.keeps_below (written_lt_memSize hs.valid) hs.memRange
    progWf := by rw [hprog, hcfg]; exact hs.progWf
    progRange := by rw [hprog, hcfg]; exact hs.progRange
    pcBound := by rw [hpcAfter, hcfg]; exact nextPc_le hpc
    diagOff := fun hoff => by
      rw [hcfg] at hoff
      rw [hdiag, hoff, hs.diagOff hoff]
      rfl
    faultPrecise := fun r hr => by cases ht.symm.trans hr }

/-- Taking a fault keeps the invariant: the record is the only change. -/
theorem inv_of_takeFault {r : Raise} (hs : s.Inv) (hpc : s.pc < s.cfg.progSize)
    (hout : r.code = .memFault ∧ s.cfg.memSize ≤ r.info ∨ r.code = .fetchFault ∧ s.cfg.progSize ≤ r.info) :
    (s.takeFault r).Inv where
  valid := hs.valid
  memWf := hs.memWf
  memRange := hs.memRange
  progWf := hs.progWf
  progRange := hs.progRange
  pcBound := hs.pcBound
  diagOff := hs.diagOff
  faultPrecise := by
    intro record hrecord
    cases hrecord
    refine ⟨hpc, rfl, rfl, fun hcode => ?_, fun hcode => ?_⟩
    · obtain ⟨-, hinfo⟩ | ⟨hfetch, -⟩ := hout
      · exact hinfo
      · cases hcode.symm.trans hfetch
    · obtain ⟨hmem, -⟩ | ⟨-, hinfo⟩ := hout
      · cases hcode.symm.trans hmem
      · exact hinfo

/-- Settles O49: a completed instruction keeps each clause by its frame, and a taken fault changes the record alone. -/
theorem stepKeepsTheInvariant : Obligations.StepKeepsTheInvariant := by
  intro s t hs h
  obtain ⟨hf, hpc⟩ := (step_cases h).1
  obtain ⟨i, hlen, hi, ht⟩ | ⟨r, rfl, hout⟩ := step_completes_or_faults h
  · exact inv_of_exec hs hlen hi hf ht
  · exact inv_of_takeFault hs hpc hout

/-! ### Runs -/

/-- Settles O50: by induction on the length of the run; where no step is enabled the core has ended or is faulted, and
the run stops there by that name. -/
theorem runsStopOnlyHaltedOrFaulted : Obligations.RunsStopOnlyHaltedOrFaulted := by
  intro s k hs
  induction k generalizing s with
  | zero => exact hs
  | succ k ih =>
    obtain hr | hended | ⟨r, hfault⟩ := running_or_ended_or_faulted s
    · obtain ⟨t, ht⟩ := step_of_running hr
      have htail := ih t (stepKeepsTheInvariant s t hs ht)
      rw [run_next ht]
      cases hrun : core.run k t with
      | next u =>
        rw [hrun] at htail
        exact htail
      | fault f =>
        rw [hrun] at htail
        obtain ⟨j, u, hj, hu, hstop⟩ := htail
        exact ⟨j + 1, u, Nat.succ_lt_succ hj, (run_next ht j).trans hu, hstop⟩
      | refused r =>
        rw [hrun] at htail
        exact htail
    · rw [run_fault (step_of_ended hended)]
      exact ⟨0, s, Nat.succ_pos k, rfl, hs, .inl ⟨rfl, hended⟩⟩
    · rw [run_fault (step_of_faulted hfault)]
      exact ⟨0, s, Nat.succ_pos k, rfl, hs, .inr ⟨r, rfl, hfault⟩⟩

/-- Over cells that are no opcode a run of as many steps as there are cells reaches the end of the store. -/
theorem run_no_opcode (d : Nat) (hf : s.fault = none) (hd : s.pc + d = s.cfg.progSize)
    (h : ∀ k m, s.pc ≤ k → k < s.cfg.progSize → s.progWord k ≠ s.cfg.opc.code m) :
    ∃ t, core.run d s = .next t ∧ t.EndedNormally ∧ t.pc = s.cfg.progSize ∧
      { t with pc := s.pc, diag := s.diag } = s := by
  induction d generalizing s with
  | zero => exact ⟨s, rfl, ⟨hf, Nat.le_of_eq hd.symm⟩, hd, rfl⟩
  | succ d ih =>
    have hpc : s.pc < s.cfg.progSize := by omega
    have hstep := (unknownWordsOnlyAdvance s).2.2 ⟨hf, hpc⟩ (fun m => h s.pc m (Nat.le_refl _) hpc)
    obtain ⟨t, hrun, hended, htpc, hframe⟩ := ih (s := { s with diag := _, pc := s.pc + 1 }) hf
      (by simp only; omega) (fun k m hk => h k m (Nat.le_of_succ_le hk))
    refine ⟨t, (run_next hstep d).trans hrun, hended, htpc, ?_⟩
    exact congrArg (fun u : State => { u with pc := s.pc, diag := s.diag }) hframe

/-- Settles O48: by induction on the number of cells left, each of which only advances `pc`. -/
theorem unloadedCellsRunOffTheEnd : Obligations.UnloadedCellsRunOffTheEnd := by
  intro s hr h
  have hpc := hr.2
  exact run_no_opcode _ hr.1 (by omega) h

end Sys2Proof.Machine

/-! PROOFS. Who reads and writes what beside the memory: the flags (spec/10_state.md section 4) and the outputs
(spec/10_state.md section 5). An instruction that does not write the flags carries other values of them through; one that
writes them computes the same ones. The outputs are compared by muting them. -/

namespace Sys2Proof.Machine

variable {s t u : State} {i : Instr}

/-! ### Which instructions write the flags -/

theorem WritesMemoryOnly.body_flags (hi : WritesMemoryOnly i) (h : body i s = .ok u) : u.z = s.z ∧ u.n = s.n := by
  rw [hi s u h]
  exact ⟨rfl, rfl⟩

theorem body_flags_of_not_flagAffecting (hi : i.flagAffecting = false) (h : body i s = .ok u) :
    u.z = s.z ∧ u.n = s.n := by
  cases i with
  | movw a b => exact (writesMemoryOnly_movw a b).body_flags h
  | push a => exact (writesMemoryOnly_push a).body_flags h
  | pop a => exact (writesMemoryOnly_pop a).body_flags h
  | inp a b => exact (writesMemoryOnly_inp a b).body_flags h
  | out a b =>
    obtain ⟨-, rfl⟩ | ⟨-, rfl⟩ := outBody_cases h
    · exact ⟨State.portEffect_z _ _ _, State.portEffect_n _ _ _⟩
    · exact ⟨rfl, rfl⟩
  | bad | unknown =>
    cases h
    exact ⟨State.logDiag_z _ _ _, State.logDiag_n _ _ _⟩
  | brk | nop =>
    cases h
    exact ⟨rfl, rfl⟩
  | mov | swap | jz | je | jne =>
    obtain rfl := Except.ok.inj h
    split <;> exact ⟨rfl, rfl⟩
  | _ => cases hi

theorem body_flags (hi : i.flagAffecting = false ∨ ∃ w ∈ i.regOperands, 16 ≤ w.toNat) (h : body i s = .ok u) :
    u.z = s.z ∧ u.n = s.n := by
  obtain hi | ⟨w, hw, hge⟩ := hi
  · exact body_flags_of_not_flagAffecting hi h
  · cases h.symm.trans (body_of_invalid_register hw hge)
    exact ⟨rfl, rfl⟩

/-- Settles O20: the body keeps the flags if the instruction is none of the flag-affecting ones or does nothing. -/
theorem flagsWrittenOnlyByFlagAffectingInstructions : Obligations.FlagsWrittenOnlyByFlagAffectingInstructions := by
  intro i s t h hi
  obtain ⟨u, hu, rfl, -⟩ | ⟨y, -, -, rfl⟩ := exec_completes_or_faults h
  · exact body_flags (s := s.withPc (s.pc + i.operands.length)) (u := u) hi hu
  · exact ⟨rfl, rfl⟩

/-- An instruction writes the flags, or it is not flag-affecting or has an invalid register operand. -/
theorem writesFlags_or_not (i : Instr) :
    (i.writesFlags = true ∧ i.flagAffecting = true ∧ ∀ w ∈ i.regOperands, w.toNat < 16) ∨
    (i.writesFlags = false ∧ (i.flagAffecting = false ∨ ∃ w ∈ i.regOperands, 16 ≤ w.toNat)) := by
  unfold Instr.writesFlags
  obtain hvalid | ⟨w, hw, hge⟩ := registers_valid_or_invalid i
  · cases hi : i.flagAffecting with
    | true => exact .inl ⟨hvalid, rfl, fun w hw => of_decide_eq_true (List.all_eq_true.1 hvalid w hw)⟩
    | false => exact .inr ⟨rfl, .inl rfl⟩
  · refine .inr ⟨?_, .inr ⟨w, hw, hge⟩⟩
    have hinvalid : (i.regOperands.all fun w => decide (w.toNat < 16)) = false :=
      List.all_eq_false.2 ⟨w, hw, by simpa using hge⟩
    rw [hinvalid, Bool.and_false]

/-! ### Other values of the flags -/

/-- Other values of the flags are an update beside the memory. -/
theorem aside_withFlags (z n : Bool) : Aside (·.withFlags z n) where
  mem _ := rfl
  memSize _ := rfl
  spAddr _ := rfl
  withMem _ _ := rfl

variable (s) (z n : Bool)

theorem logDiag_withFlags (k : Nat) (w : Word) : (s.withFlags z n).logDiag k w = (s.logDiag k w).withFlags z n := by
  symm
  exact apply_ite (State.withFlags · z n) _ _ _

theorem portEffect_withFlags (a : Nat) (v : Byte) :
    (s.withFlags z n).portEffect a v = (s.portEffect a v).withFlags z n := by
  ext : 1 <;> simp <;> rfl

theorem outBody_withFlags (a b : Word) : outBody a b (s.withFlags z n) = (outBody a b s).map (·.withFlags z n) := by
  simp only [outBody, (aside_withFlags z n).writeByte, State.withFlags_reg]
  split
  · cases s.writeByte (addrOf a) (s.reg (regNo b)) with
    | error => rfl
    | ok u => exact congrArg Except.ok (portEffect_withFlags u z n _ _)
  · rfl

theorem jumpBody_withFlags (a : Word) (cond : Bool → Bool) (hz : z = s.z) :
    State.jumpBody a cond (s.withFlags z n) = (State.jumpBody a cond s).map (·.withFlags z n) := by
  subst hz
  symm
  exact congrArg Except.ok (apply_ite (State.withFlags · s.z n) _ _ _)

/-- An instruction that is not flag-affecting carries other values of the flags through, a jump another N only. -/
theorem body_withFlags_of_not_flagAffecting (hi : i.flagAffecting = false)
    (hz : z = s.z ∨ ∀ a, i ≠ .jz a ∧ i ≠ .je a ∧ i ≠ .jne a) :
    body i (s.withFlags z n) = (body i s).map (·.withFlags z n) := by
  cases i with
  | mov a b => exact (aside_withFlags z n).movBody s a b
  | swap a => exact (aside_withFlags z n).swapBody s a
  | movw a b => exact (aside_withFlags z n).movwBody s a b
  | push a => exact (aside_withFlags z n).pushBody s a
  | pop a => exact (aside_withFlags z n).popBody s a
  | inp a b => exact (aside_withFlags z n).inBody s a b
  | out a b => exact outBody_withFlags s z n a b
  | bad | unknown => exact congrArg Except.ok (logDiag_withFlags s z n _ _)
  | brk | nop => rfl
  | jz a => exact jumpBody_withFlags s z n a (fun z => z) (hz.resolve_right fun h => (h a).1 rfl)
  | je a => exact jumpBody_withFlags s z n a (fun z => z) (hz.resolve_right fun h => (h a).2.1 rfl)
  | jne a => exact jumpBody_withFlags s z n a (fun z => !z) (hz.resolve_right fun h => (h a).2.2 rfl)
  | _ => cases hi

theorem body_withFlags_of_not_writes (hi : i.flagAffecting = false ∨ ∃ w ∈ i.regOperands, 16 ≤ w.toNat)
    (hz : z = s.z ∨ ∀ a, i ≠ .jz a ∧ i ≠ .je a ∧ i ≠ .jne a) :
    body i (s.withFlags z n) = (body i s).map (·.withFlags z n) := by
  obtain hi | ⟨w, hw, hge⟩ := hi
  · exact body_withFlags_of_not_flagAffecting s z n hi hz
  · rw [body_of_invalid_register hw hge, body_of_invalid_register hw hge]
    rfl

section
variable {s : State} {a b : Word}

theorem aluRBody_valid (ha : a.toNat < 16) (f : Bool → Byte → Byte) :
    State.aluRBody a f s = .ok (s.writeResult a (f s.n (s.mem.read a.toNat))) := by
  rw [State.aluRBody, validReg_of_lt ha]
  rfl

theorem aluRIBody_valid (ha : a.toNat < 16) (f : Byte → Byte → Byte) :
    State.aluRIBody a b f s = .ok (s.writeResult a (f (s.mem.read a.toNat) (imm8 b))) := by
  rw [State.aluRIBody, validReg_of_lt ha]
  rfl

theorem aluRRBody_valid (ha : a.toNat < 16) (hb : b.toNat < 16) (f : Byte → Byte → Byte) :
    State.aluRRBody a b f s = .ok (s.writeResult a (f (s.mem.read a.toNat) (s.mem.read b.toNat))) := by
  rw [State.aluRRBody, validReg_of_lt ha, validReg_of_lt hb]
  rfl

end

/-- An instruction that writes the flags completes, and computes the same whatever they were, but for ROR, which reads
N. -/
theorem body_withFlags_of_writes (hi : i.flagAffecting = true)
    (hregs : ∀ w ∈ i.regOperands, w.toNat < 16) (hn : n = s.n ∨ ∀ a, i ≠ .ror a) :
    ∃ u, body i s = .ok u ∧ body i (s.withFlags z n) = .ok u := by
  cases i with
  | ldi a b | adiw a b | subi a b | andi a b | ori a b =>
    have ha := hregs a List.mem_cons_self
    unfold body
    exact ⟨_, aluRIBody_valid ha _, aluRIBody_valid ha _⟩
  | add a b | sub a b | mul a b | and a b | or a b | eor a b =>
    have ha := hregs a List.mem_cons_self
    have hb := hregs b (List.mem_cons_of_mem _ List.mem_cons_self)
    exact ⟨_, aluRRBody_valid ha hb _, aluRRBody_valid ha hb _⟩
  | inc a | dec a | neg a =>
    have ha := hregs a List.mem_cons_self
    unfold body
    exact ⟨_, aluRBody_valid ha _, aluRBody_valid ha _⟩
  | ror a =>
    have ha := hregs a List.mem_cons_self
    obtain rfl := hn.resolve_right fun h => h a rfl
    exact ⟨_, aluRBody_valid ha _, aluRBody_valid ha _⟩
  | cpi a b =>
    have ha := hregs a List.mem_cons_self
    exact ⟨_, cpiBody_valid ha, cpiBody_valid ha⟩
  | cp a b =>
    have ha := hregs a List.mem_cons_self
    have hb := hregs b (List.mem_cons_of_mem _ List.mem_cons_self)
    exact ⟨_, cpBody_valid ha hb, cpBody_valid ha hb⟩
  | _ => cases hi

variable {s z n}

/-- Replacing the flags where the instruction does not read what is replaced: the next state is the same, but for flags
that the instruction does not write. -/
theorem exec_withFlags (h : exec i s = .next t) (hn : n = s.n ∨ ∀ a, i ≠ .ror a)
    (hz : z = s.z ∨ ∀ a, i ≠ .jz a ∧ i ≠ .je a ∧ i ≠ .jne a) :
    exec i (s.withFlags z n) = .next (if i.writesFlags then t else t.withFlags z n) := by
  have hs : (s.withFlags z n).withPc (s.pc + i.operands.length) =
    (s.withPc (s.pc + i.operands.length)).withFlags z n := rfl
  obtain ⟨hwrites, hi, hregs⟩ | ⟨hwrites, hi⟩ := writesFlags_or_not i
  · rw [hwrites, if_pos rfl]
    obtain ⟨u, hu, hu'⟩ := body_withFlags_of_writes (s.withPc (s.pc + i.operands.length)) z n hi hregs hn
    rw [← h, exec_of_body_ok hu]
    exact exec_of_body_ok hu'
  · rw [hwrites, if_neg Bool.false_ne_true]
    have hbody := body_withFlags_of_not_writes (s.withPc (s.pc + i.operands.length)) z n hi hz
    obtain ⟨u, hu, rfl, -⟩ | ⟨y, -, hy, rfl⟩ := exec_completes_or_faults h
    · rw [hu] at hbody
      exact exec_of_body_ok (s := s.withFlags z n) hbody
    · rw [hy] at hbody
      rw [exec_eq_execute]
      exact State.execute_error hbody

/-- Settles O21: `exec_withFlags` with one flag replaced; the other keeps the value it had, before the instruction or,
if that writes no flags, after it. -/
theorem flagsReadOnlyByRorAndJumps : Obligations.FlagsReadOnlyByRorAndJumps := by
  intro i s t h
  have hkeep (hwrites : i.writesFlags = false) : t.z = s.z ∧ t.n = s.n := by
    obtain ⟨htrue, -⟩ | ⟨-, hi⟩ := writesFlags_or_not i
    · cases hwrites.symm.trans htrue
    · exact flagsWrittenOnlyByFlagAffectingInstructions i s t h hi
  refine ⟨fun n' hn => ?_, fun z' hz => ?_⟩
  · rw [exec_withFlags h (.inr hn) (.inl rfl)]
    cases hwrites : i.writesFlags with
    | true => rfl
    | false => exact (hkeep hwrites).1 ▸ rfl
  · rw [exec_withFlags h (.inl rfl) (.inr hz)]
    cases hwrites : i.writesFlags with
    | true => rfl
    | false => exact (hkeep hwrites).2 ▸ rfl

end Sys2Proof.Machine

/-! PROOFS. The outputs (spec/10_state.md section 5, spec/45_control_io.md, the diagnostic event): what an instruction does
to the rest of the state does not depend on CONSOLE, DIAG or DIAG_LOG. Two states that are equal once their outputs are
muted stay so. -/

namespace Sys2Proof.Machine

/-- `s` with other outputs. -/
def State.withOutputs (s : State) (con : List Byte) (dia : List (Nat × Word)) (log : Bool) : State :=
  { s with console := con, diag := dia, cfg := { s.cfg with diagLog := log } }

/-- `s` without its outputs. -/
def State.mute (s : State) : State := s.withOutputs [] [] false

variable {s t u : State} {i : Instr} (con : List Byte) (dia : List (Nat × Word)) (log : Bool)

/-- Other outputs are an update beside the memory. -/
theorem aside_withOutputs : Aside (·.withOutputs con dia log) where
  mem _ := rfl
  memSize _ := rfl
  spAddr _ := rfl
  withMem _ _ := rfl

/-! ### The two operations that write an output -/

theorem mute_logDiag (s : State) (k : Nat) (w : Word) : (s.logDiag k w).mute = s.mute := by
  unfold State.logDiag
  split <;> rfl

theorem mute_portEffect (s : State) (a : Nat) (v : Byte) :
    (s.portEffect a v).mute = if a = s.cfg.portExit then s.halt.mute else s.mute := by
  unfold State.portEffect
  split <;> split <;> rfl

theorem mute_portEffect_withOutputs (s : State) (a : Nat) (v : Byte) :
    ((s.withOutputs con dia log).portEffect a v).mute = (s.portEffect a v).mute :=
  (mute_portEffect _ a v).trans (mute_portEffect s a v).symm

/-! ### Bodies, instructions and steps -/

/-- What commutes with other outputs answers the same once muted. -/
theorem map_mute_of_commutes {x y : Except Raise State} (h : x = y.map (·.withOutputs con dia log)) :
    x.map State.mute = y.map State.mute := by
  subst h
  cases y <;> rfl

theorem outBody_mute (s : State) (a b : Word) :
    (outBody a b (s.withOutputs con dia log)).map State.mute = (outBody a b s).map State.mute := by
  simp only [outBody, (aside_withOutputs con dia log).writeByte, (aside_withOutputs con dia log).reg]
  split
  · cases s.writeByte (addrOf a) (s.reg (regNo b)) with
    | error => rfl
    | ok u => exact congrArg Except.ok (mute_portEffect_withOutputs con dia log u _ _)
  · rfl

/-- A body does the same with other outputs, once muted. The bodies without an arm of their own here are one conditional
update of registers, flags or `pc`. -/
theorem body_mute (s : State) (i : Instr) :
    (body i (s.withOutputs con dia log)).map State.mute = (body i s).map State.mute := by
  cases i with
  | movw a b => exact map_mute_of_commutes con dia log ((aside_withOutputs con dia log).movwBody s a b)
  | push a => exact map_mute_of_commutes con dia log ((aside_withOutputs con dia log).pushBody s a)
  | pop a => exact map_mute_of_commutes con dia log ((aside_withOutputs con dia log).popBody s a)
  | inp a b => exact map_mute_of_commutes con dia log ((aside_withOutputs con dia log).inBody s a b)
  | out a b => exact outBody_mute con dia log s a b
  | bad | unknown => exact congrArg Except.ok ((mute_logDiag _ _ _).trans (mute_logDiag s _ _).symm)
  | brk | nop => rfl
  | _ =>
    refine map_mute_of_commutes con dia log (Eq.symm ?_)
    exact congrArg Except.ok (apply_ite (State.withOutputs · con dia log) _ _ _)

variable {con dia log}

theorem exec_mute (h : exec i s = .next t) :
    ∃ t', exec i (s.withOutputs con dia log) = .next t' ∧ t'.mute = t.mute := by
  have hbody := body_mute con dia log (s.withPc (s.pc + i.operands.length)) i
  obtain ⟨u, hu, rfl, -⟩ | ⟨y, -, hy, rfl⟩ := exec_completes_or_faults h
  · rw [hu] at hbody
    cases hu' : body i ((s.withPc (s.pc + i.operands.length)).withOutputs con dia log) with
    | error r =>
      rw [hu'] at hbody
      cases hbody
    | ok u' =>
      rw [hu'] at hbody
      refine ⟨_, exec_of_body_ok (s := s.withOutputs con dia log) hu', ?_⟩
      exact congrArg (fun v : State => v.withPc (v.pc + 1)) (Except.ok.inj hbody)
  · rw [hy] at hbody
    cases hy' : body i ((s.withPc (s.pc + i.operands.length)).withOutputs con dia log) with
    | error r =>
      rw [hy'] at hbody
      cases hbody
      exact ⟨_, (exec_eq_execute _ i).trans (State.execute_error (s := s.withOutputs con dia log) hy'), rfl⟩
    | ok u' =>
      rw [hy'] at hbody
      cases hbody

/-- The fetch and the decoder read no output. -/
theorem decode_withOutputs (s : State) :
    decode (s.withOutputs con dia log).cfg (s.withOutputs con dia log).fetchWords = decode s.cfg s.fetchWords := by
  have hwords : (s.withOutputs con dia log).fetchWords = s.fetchWords := rfl
  rw [hwords]
  cases s.fetchWords <;> rfl

theorem step_mute (h : step s = .next t) :
    ∃ t', step (s.withOutputs con dia log) = .next t' ∧ t'.mute = t.mute := by
  obtain ⟨hr, ⟨i, rest, hd, hi⟩ | ⟨e, hd, rfl⟩⟩ := step_cases h
  · rw [step_of_decode (s := s.withOutputs con dia log) hr ((decode_withOutputs s).trans hd)]
    exact exec_mute hi
  · exact ⟨_, step_of_decode_error (s := s.withOutputs con dia log) hr ((decode_withOutputs s).trans hd), rfl⟩

/-- Settles O24: the muted next states are equal, so with the same outputs the next states are. -/
theorem outputsNeverInfluenceAStep : Obligations.OutputsNeverInfluenceAStep := by
  intro s t con dia log h
  obtain ⟨t', ht', hmute⟩ := step_mute (con := con) (dia := dia) (log := log) h
  exact ⟨t', ht', congrArg (fun v : State => { v with console := t.console, diag := t.diag, cfg := t.cfg }) hmute⟩

end Sys2Proof.Machine

/-! PROOFS. Instructions that move words and bytes through memory (spec/41_data_movement.md R122 to R124): MOVW, PUSH and
POP, and that POP undoes PUSH. -/

namespace Sys2Proof.Machine

variable {s : State} {a b : Word}

/-! ### MOVW -/

/-- Settles O29: the body copies the two bytes, does nothing, or raises at the first cell past the memory. -/
theorem movwCopiesAWord : Obligations.MovwCopiesAWord := by
  refine ⟨encodedAs_of_mnemonic rfl rfl (fun _ _ => rfl) (fun _ _ => rfl),
    fun s a b => ⟨fun ha hb => ?copy, fun h => ?noop, fun ha hb h => ?fault⟩⟩
  case copy => exact (exec_eq_execute s _).trans (State.execute_ok (movwBody_ok ha hb))
  case noop => exact (exec_eq_execute s _).trans (State.execute_ok (movwBody_noop h))
  case fault => exact (exec_eq_execute s _).trans (State.execute_error (movwBody_error ha hb h))

/-! ### The bytes of a word, as numbers and in memory (R53) -/

theorem low_eq_ofNat {v : Word} {k : Nat} (h : v.toNat = k) : (v.setWidth 8 : Byte) = BitVec.ofNat 8 (k % 256) := by
  apply BitVec.eq_of_toNat_eq
  rw [State.low_toNat, h, BitVec.toNat_ofNat]
  omega

theorem high_eq_ofNat {v : Word} {k : Nat} (h : v.toNat = k) :
    ((v >>> 8).setWidth 8 : Byte) = BitVec.ofNat 8 (k / 256) := by
  apply BitVec.eq_of_toNat_eq
  have hv := v.isLt
  rw [State.high_toNat, h, BitVec.toNat_ofNat]
  omega

theorem wordAt_low (s : State) (x : Nat) : ((s.wordAt x).setWidth 8 : Byte) = s.mem.read x := by
  apply BitVec.eq_of_toNat_eq
  have hlow := (s.mem.read x).isLt
  rw [State.low_toNat, State.wordAt_toNat]
  omega

theorem wordAt_high (s : State) (x : Nat) : ((s.wordAt x >>> 8).setWidth 8 : Byte) = s.mem.read (x + 1) := by
  apply BitVec.eq_of_toNat_eq
  have hlow := (s.mem.read x).isLt
  rw [State.high_toNat, State.wordAt_toNat]
  omega

/-- A word written to memory, low byte first. -/
def Memory.writeWord (m : Memory) (x : Nat) (v : Word) : Memory :=
  (m.write x (v.setWidth 8)).write (x + 1) ((v >>> 8).setWidth 8)

namespace Memory

variable {m : Memory}

theorem writeWord_wf (hm : m.wf = true) (x : Nat) (v : Word) : (m.writeWord x v).wf = true :=
  write_wf (write_wf hm _ _) _ _

theorem read_writeWord_ne {x y : Nat} (v : Word) (hlow : y ≠ x) (hhigh : y ≠ x + 1) :
    (m.writeWord x v).read y = m.read y :=
  (read_write_ne _ hhigh).trans (read_write_ne _ hlow)

theorem read_writeWord_low (hm : m.wf = true) (x : Nat) (v : Word) : (m.writeWord x v).read x = v.setWidth 8 :=
  (read_write_ne _ (Nat.ne_of_lt (Nat.lt_succ_self x))).trans (read_write_self hm _ _)

theorem read_writeWord_high (hm : m.wf = true) (x : Nat) (v : Word) :
    (m.writeWord x v).read (x + 1) = (v >>> 8).setWidth 8 :=
  read_write_self (write_wf hm _ _) _ _

/-- The bytes of a word written are those of the number it is. -/
theorem writeWord_eq_ofNat {v : Word} {k : Nat} (h : v.toNat = k) (x : Nat) :
    m.writeWord x v = (m.write x (BitVec.ofNat 8 (k % 256))).write (x + 1) (BitVec.ofNat 8 (k / 256)) := by
  rw [writeWord, low_eq_ofNat h, high_eq_ofNat h]

end Memory

/-- SP reads as the word last written to it. -/
theorem sp_withMem_writeWord {m : Memory} (hm : m.wf = true) (v : Word) :
    (s.withMem (m.writeWord s.cfg.spAddr v)).sp = v :=
  State.wordAt_write (s := s.withMem m) hm v

theorem sp_withMem_toNat (m : Memory) :
    (s.withMem m).sp.toNat = (m.read s.cfg.spAddr).toNat + 256 * (m.read (s.cfg.spAddr + 1)).toNat :=
  State.wordAt_toNat (s := s.withMem m) _

/-! ### PUSH -/

/-- The memory after the store of PUSH, before SP is decremented. -/
def pushStored (s : State) (a : Word) : Memory := s.mem.write s.sp.toNat (s.mem.read a.toNat)

theorem exec_push_valid (hc : s.cfg.Valid) (ha : a.toNat < 16) (hsp : s.sp.toNat < s.cfg.memSize) :
    exec (.push a) s = .next ((s.withMem ((pushStored s a).writeWord s.cfg.spAddr
      ((s.withMem (pushStored s a)).sp - 1))).withPc (s.pc + 2)) :=
  (exec_eq_execute s _).trans (State.execute_ok (pushBody_ok (s := s.withPc (s.pc + 1)) hc ha hsp))

/-- SP is one less, modulo 65536. -/
theorem sp_pred_toNat (v : Word) : (v - 1).toNat = (v.toNat + 65535) % 65536 := by
  rw [BitVec.toNat_sub]
  change (65536 - 1 + v.toNat) % 65536 = _
  omega

/-- Where SP does not point at itself, the store of PUSH leaves it as it was. -/
theorem sp_pushStored (hlow : s.sp.toNat ≠ s.cfg.spAddr) (hhigh : s.sp.toNat ≠ s.cfg.spAddr + 1) :
    (s.withMem (pushStored s a)).sp = s.sp := by
  change (pushStored s a).read (s.cfg.spAddr + 1) ++ (pushStored s a).read s.cfg.spAddr = s.sp
  rw [pushStored, Memory.read_write_ne _ hlow.symm, Memory.read_write_ne _ hhigh.symm]
  rfl

/-- The state PUSH leaves where SP does not point at itself: the byte at the old SP, and SP one less. -/
def State.pushed (s : State) (a : Word) : State :=
  (s.withMem ((pushStored s a).writeWord s.cfg.spAddr (s.sp - 1))).withPc (s.pc + 2)

theorem exec_push_outside (hc : s.cfg.Valid) (ha : a.toNat < 16) (hsp : s.sp.toNat < s.cfg.memSize)
    (hlow : s.sp.toNat ≠ s.cfg.spAddr) (hhigh : s.sp.toNat ≠ s.cfg.spAddr + 1) :
    exec (.push a) s = .next (s.pushed a) := by
  rw [exec_push_valid hc ha hsp, sp_pushStored hlow hhigh, State.pushed]

theorem State.pushed_sp (hm : s.mem.wf = true) : (s.pushed a).sp = s.sp - 1 :=
  sp_withMem_writeWord (Memory.write_wf hm _ _) _

theorem State.pushed_wf (hm : s.mem.wf = true) : (s.pushed a).mem.wf = true :=
  Memory.writeWord_wf (Memory.write_wf hm _ _) _ _

theorem State.pushed_read (hm : s.mem.wf = true) (hlow : s.sp.toNat ≠ s.cfg.spAddr)
    (hhigh : s.sp.toNat ≠ s.cfg.spAddr + 1) : (s.pushed a).mem.read s.sp.toNat = s.mem.read a.toNat :=
  (Memory.read_writeWord_ne _ hlow hhigh).trans (Memory.read_write_self hm _ _)

/-- Settles O30: the four ways PUSH can go, and the last clause from the first where the store leaves SP alone. -/
theorem pushStoresThenDecrements : Obligations.PushStoresThenDecrements := by
  refine ⟨encodedAs_of_mnemonic rfl rfl (fun _ _ => rfl) (fun _ _ => rfl),
    fun s a hc => ⟨fun ha hsp => ?store, fun ha hsp => ?fault, fun ha => ?noop, fun hm ha hsp hlow hhigh => ?outside⟩⟩
  case store =>
    rw [exec_push_valid hc ha hsp, Memory.writeWord_eq_ofNat (sp_pred_toNat _), sp_withMem_toNat]
    rfl
  case fault =>
    exact (exec_eq_execute s _).trans (State.execute_error (pushBody_error (s := s.withPc (s.pc + 1)) hc ha hsp))
  case noop => exact (exec_eq_execute s _).trans (State.execute_ok (pushBody_noop ha))
  case outside =>
    exact ⟨_, exec_push_outside hc ha hsp hlow hhigh, State.pushed_read hm hlow hhigh, State.pushed_sp hm⟩

/-! ### POP -/

/-- The memory after POP has moved SP, before the register is loaded. -/
def popMoved (s : State) : Memory := s.mem.writeWord s.cfg.spAddr (s.sp + 1)

theorem exec_pop_valid (hc : s.cfg.Valid) (hm : s.mem.wf = true) (ha : a.toNat < 16)
    (hsp : (s.sp + 1).toNat < s.cfg.memSize) :
    exec (.pop a) s =
      .next ((s.withMem ((popMoved s).write a.toNat ((popMoved s).read (s.sp + 1).toNat))).withPc (s.pc + 2)) :=
  (exec_eq_execute s _).trans (State.execute_ok (popBody_ok (s := s.withPc (s.pc + 1)) hc hm ha hsp))

/-- Settles O31: the three ways POP can go, over the incremented SP as a number. -/
theorem popIncrementsThenLoads : Obligations.PopIncrementsThenLoads := by
  refine ⟨encodedAs_of_mnemonic rfl rfl (fun _ _ => rfl) (fun _ _ => rfl),
    fun s a hc hm => ⟨fun ha hsp => ?load, fun ha hsp => ?fault, fun ha => ?noop⟩⟩
  case load =>
    rw [← sp_succ_toNat] at hsp
    rw [exec_pop_valid hc hm ha hsp, popMoved, Memory.writeWord_eq_ofNat sp_succ_toNat, sp_succ_toNat]
    rfl
  case fault =>
    rw [← sp_succ_toNat] at hsp ⊢
    exact (exec_eq_execute s _).trans (State.execute_error (popBody_error (s := s.withPc (s.pc + 1)) hc ha hsp))
  case noop => exact (exec_eq_execute s _).trans (State.execute_ok (popBody_noop ha))

/-! ### PUSH, then POP -/

/-- A memory that holds the bytes of SP still does when a cell gets the byte it had before. -/
theorem sp_withMem_write {m : Memory} (hm : m.wf = true) (hlow : m.read s.cfg.spAddr = s.mem.read s.cfg.spAddr)
    (hhigh : m.read (s.cfg.spAddr + 1) = s.mem.read (s.cfg.spAddr + 1)) (x : Nat) :
    (s.withMem (m.write x (s.mem.read x))).sp = s.sp := by
  have hread (y : Nat) (hy : m.read y = s.mem.read y) : (m.write x (s.mem.read x)).read y = s.mem.read y := by
    rw [Memory.read_write hm]
    split
    · subst_vars
      rfl
    · exact hy
  exact congrArg₂ (fun (high low : Byte) => high ++ low) (hread _ hhigh) (hread _ hlow)

/-- Settles O32: POP moves SP back to where PUSH found it, so its bytes are the old ones and the cell it points at is the
one PUSH stored to; the byte loaded is therefore the register's old one, also where the register is a byte of SP. -/
theorem pushThenPopRestores : Obligations.PushThenPopRestores := by
  intro s a hc hm ha hsp hlow hhigh
  have hpushed : (s.pushed a).mem.wf = true := State.pushed_wf hm
  have hback : (s.pushed a).sp + 1 = s.sp := by rw [State.pushed_sp hm, BitVec.sub_add_cancel]
  have hmoved : popMoved (s.pushed a) = (s.pushed a).mem.writeWord s.cfg.spAddr s.sp :=
    congrArg ((s.pushed a).mem.writeWord s.cfg.spAddr) hback
  have hwf : (popMoved (s.pushed a)).wf = true := Memory.writeWord_wf hpushed _ _
  have hloaded : (popMoved (s.pushed a)).read ((s.pushed a).sp + 1).toNat = s.mem.read a.toNat := by
    rw [hmoved, hback, Memory.read_writeWord_ne _ hlow hhigh, State.pushed_read hm hlow hhigh]
  have hpop := exec_pop_valid (s := s.pushed a) (a := a) hc hpushed ha (hback ▸ hsp)
  rw [hloaded] at hpop
  refine ⟨_, _, exec_push_outside hc ha hsp hlow hhigh, hpop, Memory.read_write_self hwf _ _, ?_, rfl, rfl⟩
  refine sp_withMem_write hwf ?_ ?_ a.toNat
  · rw [hmoved, Memory.read_writeWord_low hpushed]
    exact wordAt_low s _
  · rw [hmoved, Memory.read_writeWord_high hpushed]
    exact wordAt_high s _

end Sys2Proof.Machine

/-! PROOFS. The remaining instruction rules: ROR (spec/42_arithmetic.md R152), JE and taken jumps (spec/44_compare_jump.md
R173, R175), OUT and IN (spec/45_control_io.md R182, R183), and that a register is the cell of its number
(spec/10_state.md R21). -/

namespace Sys2Proof.Machine

variable {s : State} {a b : Word}

/-! ### ROR -/

theorem exec_ror_valid (ha : a.toNat < 16) :
    exec (.ror a) s = .next (s.withResult a ((if s.n then 128 else 0) + s.regInt a / 2) 2) := by
  have hres : ((rorByN s.n (s.mem.read a.toNat)).toNat : Int) =
      ((if s.n then 128 else 0) + s.regInt a / 2) % 256 := by
    have hx := (s.mem.read a.toNat).isLt
    rw [rorByN_toNat, State.regInt]
    split <;> omega
  exact (exec_ror s a).trans (State.aluR_withResult ha hres)

/-- Bit 7 of the result is N: half of a byte is below 128. -/
theorem withResult_ror_n (s : State) (a : Word) :
    (s.withResult a ((if s.n then 128 else 0) + s.regInt a / 2) 2).n = s.n := by
  have hx := (s.mem.read a.toNat).isLt
  simp only [State.withResult, State.regInt]
  cases s.n
  · exact decide_eq_false (by simp only [Bool.false_eq_true, if_false]; omega)
  · exact decide_eq_true (by simp only [if_true]; omega)

/-- Settles O37: the result is the fill bit and half of the byte, and its bit 7 is the fill bit. -/
theorem rorFillsFromNegative : Obligations.RorFillsFromNegative := by
  refine ⟨encodedAs_of_mnemonic rfl rfl (fun _ _ => rfl) (fun _ _ => rfl),
    fun s a => ⟨exec_ror_valid, fun ha => ?noop, fun t ht => ?n⟩⟩
  case noop => exact (exec_ror s a).trans (State.aluR_invalid ha _)
  case n =>
    obtain ha | ha := Nat.lt_or_ge a.toNat 16
    · cases ht.symm.trans (exec_ror_valid ha)
      exact withResult_ror_n s a
    · cases ht.symm.trans ((exec_ror s a).trans (State.aluR_invalid ha _))
      rfl

/-! ### JE, and where a taken jump goes -/

/-- Settles O42: the two are one conditional jump. -/
theorem jeIsASynonymOfJz : Obligations.JeIsASynonymOfJz :=
  ⟨encodedAs_of_mnemonic rfl rfl (fun _ _ => rfl) (fun _ _ => rfl),
    fun s a => ⟨rfl, (exec_je s a).trans (State.jumpIf_eq a _)⟩⟩

/-- A step at a jump whose condition holds goes to its target + 1. -/
theorem step_taken_jump {m : Mnemonic} (hc : s.cfg.Valid) (hr : s.Running) (hfits : s.pc + 1 < s.cfg.progSize)
    (hm : s.progWord s.pc = s.cfg.opc.code m) (hcond : (m = .jz ∨ m = .je) ∧ s.z = true ∨ m = .jne ∧ s.z = false) :
    step s = .next (s.withPc ((s.progWord (s.pc + 1)).toNat + 1)) := by
  obtain ⟨rfl | rfl, hz⟩ | ⟨rfl, hz⟩ := hcond
  · obtain ⟨⟨-, hstep⟩, -, -⟩ := jzAndJneJumpOnZero
    rw [(hstep s hc hr hm).1 hfits, exec_jz]
    exact State.jumpIf_taken _ hz
  · obtain ⟨⟨-, hstep⟩, -⟩ := jeIsASynonymOfJz
    rw [(hstep s hc hr hm).1 hfits, exec_je]
    exact State.jumpIf_taken _ hz
  · obtain ⟨-, ⟨-, hstep⟩, -⟩ := jzAndJneJumpOnZero
    rw [(hstep s hc hr hm).1 hfits, exec_jne]
    exact State.jumpIf_taken _ (congrArg Bool.not hz)

/-- A state that is its own successor is where every run from it is. -/
theorem run_of_step_self (h : step s = .next s) (k : Nat) : core.run k s = .next s := by
  induction k with
  | zero => rfl
  | succ k ih => exact (run_next h k).trans ih

/-- Settles O43: target + 1 is the jump's own index, or no index of the store. -/
theorem jumpToItselfRepeatsAndJumpOutEnds : Obligations.JumpToItselfRepeatsAndJumpOutEnds := by
  intro s m hc hr hfits hm hcond
  have hstep := step_taken_jump hc hr hfits hm hcond
  refine ⟨fun hself => ?_, fun hout => ⟨_, hstep, ⟨hr.1, hout⟩, rfl⟩⟩
  rw [hself, State.withPc_self] at hstep
  exact ⟨hstep, run_of_step_self hstep⟩

/-! ### OUT and IN -/

/-- The port decoder as one update of the console and of `pc`. -/
theorem portEffect_eq (s : State) (x : Nat) (v : Byte) :
    s.portEffect x v = { s with
      console := if x = s.cfg.portConsole then s.console ++ [v] else s.console
      pc := if x = s.cfg.portExit then s.cfg.progSize else s.pc } := by
  unfold State.portEffect
  split <;> split <;> rfl

/-- Settles O45: the store, then the port decoder's update, before the loop's increment. -/
theorem outStoresThenActsOnPorts : Obligations.OutStoresThenActsOnPorts := by
  refine ⟨encodedAs_of_mnemonic rfl rfl (fun _ _ => rfl) (fun _ _ => rfl),
    fun s a b _ => ⟨fun hb ha => ?store, fun hb ha => ?fault, fun hb => ?noop⟩⟩
  case store =>
    have hpc : (if a.toNat = s.cfg.portExit then s.cfg.progSize else s.pc + 2) + 1 =
        if a.toNat = s.cfg.portExit then s.cfg.progSize + 1 else s.pc + 3 := apply_ite (· + 1) _ _ _
    have hbody := outBody_ok (s := s.withPc (s.pc + 2)) hb ha
    rw [portEffect_eq] at hbody
    rw [← hpc]
    exact exec_of_body_ok (i := .out a b) hbody
  case fault => exact (exec_eq_execute s _).trans (State.execute_error (outBody_error hb ha))
  case noop => exact (exec_eq_execute s _).trans (State.execute_ok (outBody_noop hb))

theorem exec_inp_valid (ha : a.toNat < 16) (hb : b.toNat < s.cfg.memSize) :
    exec (.inp a b) s = .next ((s.withMem (s.mem.write a.toNat (s.mem.read b.toNat))).withPc (s.pc + 3)) :=
  (exec_eq_execute s _).trans (State.execute_ok (inBody_ok ha hb))

theorem exec_inp_invalid (ha : 16 ≤ a.toNat) : exec (.inp a b) s = .next (s.withPc (s.pc + 3)) :=
  (exec_eq_execute s _).trans (State.execute_ok (inBody_noop ha))

/-- Settles O46: the body loads the one cell, raises past the memory, or does nothing. -/
theorem inLoadsAnyCell : Obligations.InLoadsAnyCell := by
  refine ⟨encodedAs_of_mnemonic rfl rfl (fun _ _ => rfl) (fun _ _ => rfl),
    fun s a b => ⟨exec_inp_valid, fun ha hb => ?fault, exec_inp_invalid⟩⟩
  case fault => exact (exec_eq_execute s _).trans (State.execute_error (inBody_error ha hb))

/-! ### A register and the cell of its number -/

/-- Settles O26: an address below 16 is in range and no port, so OUT and IN only copy, as MOV does; an invalid register
makes all three the same no-op. -/
theorem registersAreTheFirstCells : Obligations.RegistersAreTheFirstCells := by
  intro a b s hc
  have hmov := movCopiesARegister.2 s a b
  have hout := outStoresThenActsOnPorts.2 s a b hc
  obtain ⟨⟨hmem, -⟩, -, -, ⟨hconsole, -⟩, ⟨hexit, -⟩, -⟩ := hc
  refine ⟨fun ha => ?out, fun hb => ?inp⟩
  case out =>
    obtain hb | hb := Nat.lt_or_ge b.toNat 16
    · rw [hout.1 hb (by omega), hmov.1 ha hb, if_neg (by omega), if_neg (by omega)]
    · rw [hout.2.2 hb, hmov.2 (.inr hb)]
  case inp =>
    obtain ha | ha := Nat.lt_or_ge a.toNat 16
    · rw [exec_inp_valid ha (by omega), hmov.1 ha hb]
      rfl
    · rw [exec_inp_invalid ha, hmov.2 (.inl ha)]
      rfl

end Sys2Proof.Machine

/-! PROOFS. The memory primitives out of range (spec/00_scope.md section 4), the canonical form of memory, and reset with
the loader (spec/10_state.md section 7, spec/70_reset_and_hazards.md section 1): what a loaded cell holds, and that the
store a loader builds is canonical. -/

namespace Sys2Proof.Machine

variable {c : Config} {ws : List Word}

/-! ### The memory -/

/-- Settles O3: each primitive checks its cells in order before it touches any. -/
theorem outOfRangeAccessNamesTheFirstCell : Obligations.OutOfRangeAccessNamesTheFirstCell := by
  refine fun s a v w => ⟨fun h => ?low, fun h => ?high⟩
  case low =>
    exact ⟨State.readByte_error h, State.writeByte_error h v, State.readWord_error_low h, State.writeWord_error_low h w⟩
  case high =>
    rw [← h]
    exact ⟨State.readWord_error_high h, State.writeWord_error_high h w⟩

/-- Settles O4: for any sparse store. -/
theorem memoryCanonicalFormIsKeptAndUnique : Obligations.MemoryCanonicalFormIsKeptAndUnique :=
  ⟨fun _ a v hm => Memory.write_wf hm a v, fun _ _ hm hm' h => Cells.ext_of_get hm hm' h⟩

/-! ### The loader -/

/-- The words the loader copies: those up to the first zero word. -/
def beforeSentinel (ws : List Word) : List Word := ws.takeWhile fun w => w != 0

/-- The loader lists only cells from `k` on that lie in the store. -/
theorem loadFrom_keys (c : Config) (ws : List Word) (k : Nat) : ∀ x ∈ loadFrom c k ws, k ≤ x.1 ∧ x.1 < c.progSize := by
  induction ws generalizing k with
  | nil => exact fun _ hx => nomatch hx
  | cons w ws ih =>
    have htail (x) (hx : x ∈ loadFrom c (k + 1) ws) : k ≤ x.1 ∧ x.1 < c.progSize :=
      ⟨Nat.le_of_succ_le (ih (k + 1) x hx).1, (ih (k + 1) x hx).2⟩
    unfold loadFrom
    split
    next hcopy =>
      split
      · exact htail
      · exact List.forall_mem_cons.2 ⟨⟨Nat.le_refl k, hcopy.1⟩, htail⟩
    next => exact fun _ hx => nomatch hx

theorem loadFrom_wf (c : Config) (ws : List Word) (k : Nat) : Cells.wf c.badWord (loadFrom c k ws) = true := by
  induction ws generalizing k with
  | nil => rfl
  | cons w ws ih =>
    unfold loadFrom
    split
    · split
      · exact ih (k + 1)
      next hbad => exact Cells.wf_cons.2 ⟨hbad, fun x hx => (loadFrom_keys c ws (k + 1) x hx).1, ih (k + 1)⟩
    · rfl

/-- Loading a nonzero word in the store places it and goes on, also where the word is BAD_WORD and is not listed. -/
theorem get_loadFrom_cons {w : Word} {k : Nat} (hk : k < c.progSize) (hw : w ≠ 0) (a : Nat) :
    Cells.get c.badWord (loadFrom c k (w :: ws)) a =
      if k = a then w else Cells.get c.badWord (loadFrom c (k + 1) ws) a := by
  rw [loadFrom, if_pos ⟨hk, hw⟩]
  split
  next hbad =>
    split
    next ha =>
      rw [hbad]
      exact Cells.get_of_lt fun x hx => ha ▸ (loadFrom_keys c ws (k + 1) x hx).1
    next => rfl
  next => rfl

theorem beforeSentinel_cons_zero (ws : List Word) : beforeSentinel (0 :: ws) = [] := rfl

theorem beforeSentinel_cons {w : Word} (hw : w ≠ 0) (ws : List Word) :
    beforeSentinel (w :: ws) = w :: beforeSentinel ws :=
  List.takeWhile_cons_of_pos (bne_iff_ne.2 hw)

/-- What a cell of the store holds after `Load` from index `k` on. -/
theorem get_loadFrom (c : Config) (ws : List Word) (k j : Nat) (hj : k + j < c.progSize) :
    Cells.get c.badWord (loadFrom c k ws) (k + j) = (beforeSentinel ws)[j]?.getD c.badWord := by
  induction ws generalizing k j with
  | nil => rfl
  | cons w ws ih =>
    obtain rfl | hw := eq_or_ne w 0
    · rw [loadFrom, if_neg (fun h => h.2 rfl), beforeSentinel_cons_zero]
      rfl
    · rw [get_loadFrom_cons (by omega) hw, beforeSentinel_cons hw]
      cases j with
      | zero => exact if_pos rfl
      | succ j =>
        rw [if_neg (by omega), List.getElem?_cons_succ, ← ih (k + 1) j (by omega)]
        congr 1
        omega

theorem resetWith_progWord (c : Config) (image : List Word) {k : Nat} (hk : k < c.progSize) :
    (State.resetWith c image).progWord k = (beforeSentinel image)[k]?.getD c.badWord := by
  have h := get_loadFrom c image 0 k (by omega)
  rwa [Nat.zero_add] at h

theorem resetWith_status (hc : c.Valid) (image : List Word) : (State.resetWith c image).status = .running :=
  status_running_iff.2 ⟨rfl, hc.2.1.1⟩

theorem resetWith_sp (c : Config) (image : List Word) : (State.resetWith c image).sp = 0 := by
  change (0 : Byte) ++ (0 : Byte) = (0 : Word)
  decide

/-- Settles O5: every field by its definition, and the program store by what the loader leaves in a cell. -/
theorem resetLeavesEverythingDefinite : Obligations.ResetLeavesEverythingDefinite :=
  ⟨fun c image => ⟨rfl, fun _ => rfl, resetWith_sp c image, rfl, rfl, rfl, rfl, rfl, rfl,
    fun hc => resetWith_status hc image, fun _ hk => resetWith_progWord c image hk⟩, rfl⟩

/-- Word `k` is before the sentinel if no word up to it is zero or missing. -/
theorem beforeSentinel_of_nonzero {k : Nat} (h : ∀ j, j ≤ k → ws.getD j 0 ≠ 0) :
    (beforeSentinel ws)[k]? = some (ws.getD k 0) := by
  induction ws generalizing k with
  | nil => exact absurd rfl (h 0 (Nat.zero_le k))
  | cons w ws ih =>
    have hw : w ≠ 0 := h 0 (Nat.zero_le k)
    rw [beforeSentinel_cons hw]
    cases k with
    | zero => rfl
    | succ k => exact ih fun j hj => h (j + 1) (Nat.succ_le_succ hj)

/-- No word is before the sentinel if one up to it is zero or missing. -/
theorem beforeSentinel_of_zero {j k : Nat} (hj : j ≤ k) (h : ws.getD j 0 = 0) : (beforeSentinel ws)[k]? = none := by
  induction ws generalizing j k with
  | nil => rfl
  | cons w ws ih =>
    obtain rfl | hw := eq_or_ne w 0
    · rfl
    · rw [beforeSentinel_cons hw]
      match j, k with
      | 0, _ => exact absurd h hw
      | j + 1, k + 1 => exact ih (Nat.le_of_succ_le_succ hj) h

/-- Settles O6: whether word `k` stands before the sentinel. -/
theorem loaderCopiesUpToTheSentinel : Obligations.LoaderCopiesUpToTheSentinel := by
  refine fun c image k hk => ⟨fun h => ?_, fun h => ?_⟩
  · rw [resetWith_progWord c image hk, beforeSentinel_of_nonzero h]
    rfl
  · obtain ⟨j, hj, hzero⟩ : ∃ j, j ≤ k ∧ image.getD j 0 = 0 := by simpa using h
    rw [resetWith_progWord c image hk, beforeSentinel_of_zero hj hzero]
    rfl

theorem resetWith_inv (hc : c.Valid) (image : List Word) : (State.resetWith c image).Inv where
  valid := hc
  memWf := rfl
  memRange := rfl
  progWf := loadFrom_wf c image 0
  progRange := Cells.below_iff.2 fun x hx => (loadFrom_keys c image 0 x hx).2
  pcBound := Nat.zero_le _
  diagOff := fun _ => rfl
  faultPrecise := fun _ h => nomatch h

/-- Settles O7: nothing is listed but what the loader placed; `State.reset` loads nothing. -/
theorem resetSatisfiesTheInvariant : Obligations.ResetSatisfiesTheInvariant :=
  ⟨resetWith_inv (c := Config.default) (by decide) [], fun _ image hc => resetWith_inv hc image⟩

end Sys2Proof.Machine
